-- ==== Sys2Proof/Word.lean ====
section
/-! DEFINITION. The word types of the block: u8, u16 and u32 (00_scope.md R8, R11). -/

namespace Sys2Proof

/-- A `u8`: one byte of memory or of an instruction (R11). -/
abbrev Byte := BitVec 8

/-- A `u16`: the width of the offset field of LOAD and STORE (R11, R115). -/
abbrev Half := BitVec 16

/-- A `u32`: the width of every register, of PC, SP and FLAGS, and of an address (R8, R11). -/
abbrev Word := BitVec 32

end Sys2Proof
end

