-- ==== Sys2Proof/Config.lean ====
section
/-! DEFINITION. The parameters of the block (00_scope.md R9) as plain data, and its one uninterpreted
oracle, the devices behind the bus (R10, R77). -/

namespace Sys2Proof

/-- OPCODE_MAP (30_encoding.md R120): the numeric code of each of the 19 mnemonics. The source gives no
numbers, so the map is a parameter; which maps are legal is `OpcodeMap.injective` (Decode.lean). -/
structure OpcodeMap where
  halt  : Byte
  ret   : Byte
  loadi : Byte
  load  : Byte
  store : Byte
  add   : Byte
  sub   : Byte
  and   : Byte
  or    : Byte
  xor   : Byte
  cmp   : Byte
  push  : Byte
  pop   : Byte
  out   : Byte
  inp   : Byte
  jmp   : Byte
  jz    : Byte
  jnz   : Byte
  call  : Byte
deriving DecidableEq, Repr

/-- OFFSET_EXT (R9, R115): how the 16-bit offset of LOAD and STORE is extended. -/
inductive OffsetExt where
  | zext
  | sext
deriving DecidableEq, Repr

/-- The parameters a block is built with (R9). They are fixed when the machine is constructed; no step and no
host operation changes them. The values of the default configuration are `Machine.defaultConfig`. -/
structure Config where
  /-- MEM_SIZE: the RAM size in bytes (D6). -/
  memSize : Nat
  /-- OPCODE_MAP (D1). -/
  opcodes : OpcodeMap
  /-- OFFSET_EXT (D4). -/
  offsetExt : OffsetExt
  /-- HALT_ADVANCES_PC (D10). -/
  haltAdvancesPc : Bool
  /-- BP_STEP_CAP: the step cap of a breakpoint-mode run (D26). -/
  bpStepCap : Nat
  /-- BP_MAX: the capacity of the breakpoint set; `none` is unbounded (D40). -/
  bpMax : Option Nat
  /-- VERIFY: whether program loading verifies v2 headers (D31). -/
  verify : Bool
  /-- SNAP_WORD_BYTES: the size of a snapshot's platform-word (D29). -/
  snapWordBytes : Nat
deriving DecidableEq, Repr

/-- One device access, as the device saw it (R76, R94): a completed one with the device, the device-local offset and
the value read or written; or one that failed, which the host may try again (60_exceptions.md R303). -/
inductive DeviceEvent where
  | read (dev off : Nat) (v : Word)
  | write (dev off : Nat) (v : Word)
  | failed
deriving DecidableEq, Repr

/-- What a device answers to a 32-bit read (R77). -/
inductive DeviceAnswer where
  | value (v : Word)
  | failure
deriving DecidableEq, Repr, Inhabited

/-- DEV_ORACLE for reads (R10, R77): a FREE VALUE. The answer of device `dev` to `read32` at offset `off`, after
the accesses `log` (oldest first). Nothing constrains it. -/
opaque Config.deviceRead (log : List DeviceEvent) (dev off : Nat) : DeviceAnswer

/-- DEV_ORACLE for writes (R77): a FREE VALUE. Whether device `dev` accepts `write32` of `v` at offset `off`, after
the accesses `log`; `false` is a device failure. Nothing constrains it. -/
opaque Config.deviceAccepts (log : List DeviceEvent) (dev off : Nat) (v : Word) : Bool

end Sys2Proof
end

