-- ==== Sys2Proof/Syntax.lean ====
section
/-! DEFINITION. The 19 instructions of the opcode table (00_scope.md R2, 30_encoding.md R110 to R112). -/

namespace Sys2Proof

/-- The 19 mnemonics, in the order of the source's table (R2, R121). -/
inductive Mnemonic where
  | halt | ret | loadi | load | store | add | sub | and | or | xor | cmp
  | push | pop | out | inp | jmp | jz | jnz | call
deriving DecidableEq, Repr

/-- The seven instruction formats (R111). -/
inductive Format where
  | n | ri | rro | rrr | rr | r | a
deriving DecidableEq, Repr

/-- An instruction with its operands. A register operand is the whole byte of its field, 0 to 255: the decoder
passes it through and the CPU checks it (R113). The operand names are those of R112. -/
inductive Instr where
  /-- HALT (R286). -/
  | halt
  /-- RET (R266). -/
  | ret
  /-- LOADI: destination, 32-bit value (R200). -/
  | loadi (d : Byte) (imm : Word)
  /-- LOAD: destination, base, offset (R203). -/
  | load (d b : Byte) (off : Half)
  /-- STORE: base, stored register, offset (R206). -/
  | store (b s : Byte) (off : Half)
  /-- ADD: destination, first and second operand (R220). -/
  | add (d a b : Byte)
  /-- SUB: destination, minuend, subtrahend (R222). -/
  | sub (d a b : Byte)
  /-- AND (R224). -/
  | and (d a b : Byte)
  /-- OR (R226). -/
  | or (d a b : Byte)
  /-- XOR (R228). -/
  | xor (d a b : Byte)
  /-- CMP: the two compared registers (R230). -/
  | cmp (a b : Byte)
  /-- PUSH: source (R260). -/
  | push (s : Byte)
  /-- POP: destination (R262). -/
  | pop (d : Byte)
  /-- OUT: source (R280). -/
  | out (s : Byte)
  /-- IN: destination (R283). -/
  | inp (d : Byte)
  /-- JMP: absolute target (R240). -/
  | jmp (t : Word)
  /-- JZ: absolute target (R242). -/
  | jz (t : Word)
  /-- JNZ: absolute target (R244). -/
  | jnz (t : Word)
  /-- CALL: absolute target (R264). -/
  | call (t : Word)
deriving DecidableEq, Repr

end Sys2Proof
end

