-- ==== Sys2Proof/WellFormed.lean ====
section
/-! DEFINITION. Which instructions name only registers that exist. Every byte decodes (30_encoding.md R126); an
instruction that is not well formed runs into `INVALID_REGISTER` (40_cycle.md R175). -/

namespace Sys2Proof

/-- A register field that names one of R0 to R7 (10_state.md R30, R31). -/
def regFieldOk (r : Byte) : Bool :=
  r.toNat < 8

/-- The register fields an instruction has, in field order (40_cycle.md R175, 30_encoding.md R112). -/
def Instr.regFields : Instr → List Byte
  | .halt => []
  | .ret => []
  | .loadi d _ => [d]
  | .load d b _ => [d, b]
  | .store b s _ => [b, s]
  | .add d a b => [d, a, b]
  | .sub d a b => [d, a, b]
  | .and d a b => [d, a, b]
  | .or d a b => [d, a, b]
  | .xor d a b => [d, a, b]
  | .cmp a b => [a, b]
  | .push s => [s]
  | .pop d => [d]
  | .out s => [s]
  | .inp d => [d]
  | .jmp _ => []
  | .jz _ => []
  | .jnz _ => []
  | .call _ => []

/-- Every register field names a register (R175). -/
def Instr.wellFormed (i : Instr) : Bool :=
  i.regFields.all regFieldOk

end Sys2Proof
end

