-- ==== Sys2Proof/Decode.lean ====
section
/-! DEFINITION. Byte order, the opcode map, the decoder and the encoder (30_encoding.md R110 to R134). The decoder is
total: every byte string gives a record, the "unimplemented" record, or the `DecodeError` by name. -/

namespace Sys2Proof

/-! Byte order (R75, R86, R111): little-endian everywhere. -/

/-- Bits `8k+7 : 8k` of a word (R75, R111). -/
def wordByte (v : Word) (k : Nat) : Byte :=
  v.extractLsb' (8 * k) 8

/-- Bits `8k+7 : 8k` of a 16-bit field (R111). -/
def halfByte (v : Half) (k : Nat) : Byte :=
  v.extractLsb' (8 * k) 8

/-- The word `b3 b2 b1 b0` whose lowest-addressed byte is `b0` (R75, R114). -/
def le32 (b0 b1 b2 b3 : Byte) : Word :=
  b3 ++ b2 ++ b1 ++ b0

/-- The half-word `b1 b0` whose lowest-addressed byte is `b0` (R115). -/
def le16 (b0 b1 : Byte) : Half :=
  b1 ++ b0

/-- The four bytes of a word in address order (R75). -/
def wordBytes (v : Word) : List Byte :=
  [wordByte v 0, wordByte v 1, wordByte v 2, wordByte v 3]

/-- The two bytes of a half-word in address order (R111). -/
def halfBytes (v : Half) : List Byte :=
  [halfByte v 0, halfByte v 1]

/-- `ext(off)` of R115: zero- or sign-extension of the offset to 32 bits. -/
def extendOffset (e : OffsetExt) (off : Half) : Word :=
  match e with
  | .zext => off.zeroExtend 32
  | .sext => off.signExtend 32

/-! The opcode table (R110, R111, R120, R121). -/

/-- The 19 mnemonics in table order (R121). -/
def allMnemonics : List Mnemonic :=
  [.halt, .ret, .loadi, .load, .store, .add, .sub, .and, .or, .xor] ++
  [.cmp, .push, .pop, .out, .inp, .jmp, .jz, .jnz, .call]

/-- The format of each mnemonic (R111). -/
def Mnemonic.format : Mnemonic → Format
  | .halt => .n
  | .ret => .n
  | .loadi => .ri
  | .load => .rro
  | .store => .rro
  | .add => .rrr
  | .sub => .rrr
  | .and => .rrr
  | .or => .rrr
  | .xor => .rrr
  | .cmp => .rr
  | .push => .r
  | .pop => .r
  | .out => .r
  | .inp => .r
  | .jmp => .a
  | .jz => .a
  | .jnz => .a
  | .call => .a

/-- The size in bytes of an instruction of each format, opcode byte included (R110, R111). -/
def Format.size : Format → Nat
  | .n => 1
  | .ri => 6
  | .rro => 5
  | .rrr => 4
  | .rr => 3
  | .r => 2
  | .a => 5

/-- The size of an instruction, fixed by its opcode alone (R110, R118). -/
def Mnemonic.size (mn : Mnemonic) : Nat :=
  mn.format.size

/-- The numeric code of a mnemonic under an opcode map (R120). -/
def OpcodeMap.code (m : OpcodeMap) : Mnemonic → Byte
  | .halt => m.halt
  | .ret => m.ret
  | .loadi => m.loadi
  | .load => m.load
  | .store => m.store
  | .add => m.add
  | .sub => m.sub
  | .and => m.and
  | .or => m.or
  | .xor => m.xor
  | .cmp => m.cmp
  | .push => m.push
  | .pop => m.pop
  | .out => m.out
  | .inp => m.inp
  | .jmp => m.jmp
  | .jz => m.jz
  | .jnz => m.jnz
  | .call => m.call

/-- An opcode map is injective (R120): no two mnemonics share a code. -/
def OpcodeMap.injective (m : OpcodeMap) : Bool :=
  decide ((allMnemonics.map m.code).Nodup)

/-- The mnemonic an opcode byte stands for, or `none` for a byte outside the image of the map (R120, R125). -/
def OpcodeMap.lookup (m : OpcodeMap) (op : Byte) : Option Mnemonic :=
  allMnemonics.find? (fun mn => m.code mn == op)

/-- The default OPCODE_MAP (R121): the spec's own numbering, 0x01 to 0x13 in table order (D1). -/
def defaultOpcodeMap : OpcodeMap where
  halt  := 0x01
  ret   := 0x02
  loadi := 0x03
  load  := 0x04
  store := 0x05
  add   := 0x06
  sub   := 0x07
  and   := 0x08
  or    := 0x09
  xor   := 0x0A
  cmp   := 0x0B
  push  := 0x0C
  pop   := 0x0D
  out   := 0x0E
  inp   := 0x0F
  jmp   := 0x10
  jz    := 0x11
  jnz   := 0x12
  call  := 0x13

/-! The decoder (R125, R126, R130 to R132). -/

/-- The decoder's output record (R130). A field its format does not have is 0; `mnem` and `fmt` are `none` in the
"unimplemented" record of an unknown opcode (R125). -/
structure DecodeRecord where
  op    : Byte
  known : Bool
  mnem  : Option Mnemonic
  fmt   : Option Format
  r1    : Byte
  r2    : Byte
  r3    : Byte
  imm   : Word
  off   : Half
  size  : Nat
deriving DecidableEq, Repr

/-- `DecodeError` (R131): `pc` is past the memory's end, or too few bytes remain. -/
inductive DecodeError where
  | outOfRange
deriving DecidableEq, Repr

/-- The 1-byte record tagged "unimplemented" of an unknown opcode byte (R125). -/
def unknownRecord (op : Byte) : DecodeRecord where
  op := op
  known := false
  mnem := none
  fmt := none
  r1 := 0
  r2 := 0
  r3 := 0
  imm := 0
  off := 0
  size := 1

/-- The record of a known opcode before its operand fields are read (R130). -/
def knownRecord (op : Byte) (mn : Mnemonic) : DecodeRecord where
  op := op
  known := true
  mnem := some mn
  fmt := some mn.format
  r1 := 0
  r2 := 0
  r3 := 0
  imm := 0
  off := 0
  size := mn.size

/-- The operand fields of each format, read from an instruction's bytes (R111, R131); byte 0 is the opcode. -/
def readRecord (mn : Mnemonic) (bs : List Byte) : DecodeRecord :=
  let b (k : Nat) : Byte := bs.getD k 0
  let D := knownRecord (b 0) mn
  match mn.format with
  | .n => D
  | .ri => { D with r1 := b 1, imm := le32 (b 2) (b 3) (b 4) (b 5) }
  | .rro => { D with r1 := b 1, r2 := b 2, off := le16 (b 3) (b 4) }
  | .rrr => { D with r1 := b 1, r2 := b 2, r3 := b 3 }
  | .rr => { D with r1 := b 1, r2 := b 2 }
  | .r => { D with r1 := b 1 }
  | .a => { D with imm := le32 (b 1) (b 2) (b 3) (b 4) }

/-- `decode(memoryView, pc)` (R131) on the memory view from `pc` to the memory's end. -/
def decode (m : OpcodeMap) (bs : List Byte) : Except DecodeError DecodeRecord :=
  match bs with
  | [] => .error .outOfRange
  | op :: _ =>
    match m.lookup op with
    | none => .ok (unknownRecord op)
    | some mn => if bs.length < mn.size then .error .outOfRange else .ok (readRecord mn bs)

/-- The instruction a mnemonic and a record's fields make, with the field roles of R112. -/
def instrOfFields (mn : Mnemonic) (D : DecodeRecord) : Instr :=
  match mn with
  | .halt => .halt
  | .ret => .ret
  | .loadi => .loadi D.r1 D.imm
  | .load => .load D.r1 D.r2 D.off
  | .store => .store D.r1 D.r2 D.off
  | .add => .add D.r1 D.r2 D.r3
  | .sub => .sub D.r1 D.r2 D.r3
  | .and => .and D.r1 D.r2 D.r3
  | .or => .or D.r1 D.r2 D.r3
  | .xor => .xor D.r1 D.r2 D.r3
  | .cmp => .cmp D.r1 D.r2
  | .push => .push D.r1
  | .pop => .pop D.r1
  | .out => .out D.r1
  | .inp => .inp D.r1
  | .jmp => .jmp D.imm
  | .jz => .jz D.imm
  | .jnz => .jnz D.imm
  | .call => .call D.imm

/-- The instruction of a record; an "unimplemented" record has none (R125). -/
def DecodeRecord.instr (D : DecodeRecord) : Option Instr :=
  match D.mnem with
  | none => none
  | some mn => some (instrOfFields mn D)

/-- The source's own record `{opcode, regA, regB, imm32, encodedSize}` (R130). -/
structure SourceRecord where
  opcode      : Byte
  regA        : Byte
  regB        : Byte
  imm32       : Word
  encodedSize : Nat
deriving DecidableEq, Repr

/-- How the decoder's record maps onto the source's (R130, 90_conflicts.md C1): the third register byte of an
RRR instruction, and the offset of an RRO instruction, travel in `imm32`. -/
def DecodeRecord.toSource (D : DecodeRecord) : SourceRecord where
  opcode := D.op
  regA := D.r1
  regB := D.r2
  imm32 :=
    match D.fmt with
    | some .ri => D.imm
    | some .a => D.imm
    | some .rro => D.off.zeroExtend 32
    | some .rrr => D.r3.zeroExtend 32
    | some .n => 0
    | some .rr => 0
    | some .r => 0
    | none => 0
  encodedSize := D.size

/-! The encoder (R111, R134). -/

/-- The mnemonic of an instruction (R2). -/
def Instr.mnemonic : Instr → Mnemonic
  | .halt => .halt
  | .ret => .ret
  | .loadi _ _ => .loadi
  | .load _ _ _ => .load
  | .store _ _ _ => .store
  | .add _ _ _ => .add
  | .sub _ _ _ => .sub
  | .and _ _ _ => .and
  | .or _ _ _ => .or
  | .xor _ _ _ => .xor
  | .cmp _ _ => .cmp
  | .push _ => .push
  | .pop _ => .pop
  | .out _ => .out
  | .inp _ => .inp
  | .jmp _ => .jmp
  | .jz _ => .jz
  | .jnz _ => .jnz
  | .call _ => .call

/-- The encoded size of an instruction (R110). -/
def Instr.size (i : Instr) : Nat :=
  i.mnemonic.size

/-- The operand bytes of an instruction, in address order after the opcode byte (R111). -/
def Instr.operandBytes : Instr → List Byte
  | .halt => []
  | .ret => []
  | .loadi d imm => d :: wordBytes imm
  | .load d b off => d :: b :: halfBytes off
  | .store b s off => b :: s :: halfBytes off
  | .add d a b => [d, a, b]
  | .sub d a b => [d, a, b]
  | .and d a b => [d, a, b]
  | .or d a b => [d, a, b]
  | .xor d a b => [d, a, b]
  | .cmp a b => [a, b]
  | .push s => [s]
  | .pop d => [d]
  | .out s => [s]
  | .inp d => [d]
  | .jmp t => wordBytes t
  | .jz t => wordBytes t
  | .jnz t => wordBytes t
  | .call t => wordBytes t

/-- The bytes of an instruction under an opcode map (R111, R120). -/
def encode (m : OpcodeMap) (i : Instr) : List Byte :=
  m.code i.mnemonic :: i.operandBytes

/-! The opcode table's numbering of an instruction's bits. -/

/-- The longest instruction, in bytes (R110). -/
def maxInstrBytes : Nat := 6

/-- The bytes of an instruction whose bits are `w`: bit 0 is the least significant bit of the first byte, and every
bit from `nbits` on is 0. -/
def tableWordBytes (nbits w : Nat) : List Byte :=
  (List.range maxInstrBytes).map fun k => BitVec.ofNat 8 ((w % 2 ^ nbits) >>> (8 * k))

/-- The instruction the decoder reads from the bits `w` of an opcode-table row of `nbits` bits, under the default
opcode map that the table is numbered by (R121). -/
def decodeTableWord (nbits w : Nat) : Option Instr :=
  match decode defaultOpcodeMap (tableWordBytes nbits w) with
  | .ok D => D.instr
  | .error _ => none

end Sys2Proof
end

