-- ==== Sys2Proof/Machine/Defaults.lean ====
section
/-! DEFINITION. The default configuration and which configurations are legal (00_scope.md R9). -/

namespace Sys2Proof.Machine

/-- The default configuration. MEM_SIZE and BP_STEP_CAP are OPEN in the spec: 256 is the size its test vectors use
(95_test_vectors.md) and 1000000 is this model's (DESIGN CHOICE, notes/assumptions/2.md). The other values are
the spec's own defaults (R9). -/
def defaultConfig : Config where
  memSize := 256
  opcodes := defaultOpcodeMap
  offsetExt := .zext
  haltAdvancesPc := false
  bpStepCap := 1000000
  bpMax := none
  verify := true
  snapWordBytes := 8

/-- The legal configurations (R9, D1, D6, D26, D40): MEM_SIZE lies in 4 to 2^32 - 4, OPCODE_MAP is injective,
BP_STEP_CAP is positive, BP_MAX is positive when finite, and a snapshot's platform-word can hold the register
count and MEM_SIZE (DEDUCED, notes/assumptions/15.md). -/
def configOk (c : Config) : Bool :=
  decide (4 ≤ c.memSize) && decide (c.memSize ≤ 2 ^ 32 - 4) && c.opcodes.injective &&
    decide (0 < c.bpStepCap) && decide (c.bpMax ≠ some 0) &&
    decide (8 < 256 ^ c.snapWordBytes) && decide (c.memSize < 256 ^ c.snapWordBytes)

end Sys2Proof.Machine
end

