-- ==== Sys2Proof/Machine/State.lean ====
section
/-! DEFINITION. The state of the block as plain data (10_state.md), the reasons a step can stop, and the state right
after reset. -/

namespace Sys2Proof.Machine

/-- RAM as the bytes that differ from what an unlisted address reads as, in rising address order (R47;
`Memory.wf` in Machine/Memory.lean is the form). -/
abbrev Memory := List Host.Cell

/-- A device mapping `{base, size, dev}` (10_state.md R50, 20_memory.md R80). -/
structure DeviceMapping where
  base : Word
  size : Nat
  dev  : Nat
deriving DecidableEq, Repr

/-- The execution faults (60_exceptions.md R301, R307 to R309, R313, R314). An execution fault is no stop of the
model: the step takes it, to a next state that is halted (R302). -/
inductive ExecFault where
  | invalidRegister
  | stackOverflow
  | stackUnderflow
  | unimplementedOpcode
  | inputFailure
deriving DecidableEq, Repr

/-- What the host input stream answers to one read (00_scope.md R10, 45_io_halt.md R284). -/
inductive InputAnswer where
  | value (v : Word)
  | failure
deriving DecidableEq, Repr

/-- The report of the last step (10_state.md R52 a and c, R64; 40_cycle.md R180): the model's own field.
`idle`: no step since reset, program load or snapshot restore. `executed`, `alreadyHalted`, `execFault`: the outcome
of R180. `waitIn`: an IN waits on the input stream, so its step has no outcome yet (45_io_halt.md R283).
The outcomes `StructError` and `Refused` of R180 are the model's fault and refusal outcomes. -/
inductive Status where
  | idle
  | executed
  | alreadyHalted
  | execFault (code : ExecFault)
  | waitIn
deriving DecidableEq, Repr

/-- The structural errors of a step (60_exceptions.md R303): the step aborts, no state changes, and the error is
surfaced to the caller. All are safe: the model stops with the error the spec names. -/
inductive Fault where
  /-- DECODE_OUT_OF_RANGE (R310), raised by the fetch of any step. Safe. -/
  | decodeOutOfRange
  /-- MEM_OUT_OF_RANGE (R311), raised by LOAD, STORE, PUSH and CALL. Safe. -/
  | memOutOfRange
  /-- DEVICE_FAULT (R312), raised by LOAD, STORE, PUSH, POP, CALL and RET at a failing device. Safe. -/
  | deviceFault
deriving DecidableEq, Repr

/-- The steps the model gives no meaning (60_exceptions.md R305). -/
inductive Refusal where
  /-- An instruction whose meaning is not written yet, by its mnemonic; raised by no arm of `exec` here. Safe. -/
  | notModelled (mnemonic : String)
  /-- REFUSED_DEVICE_FETCH (20_memory.md R84), raised by a fetch that meets a device window: the spec itself
  refuses this step, since its source does not settle it. Safe. -/
  | deviceFetch
deriving DecidableEq, Repr

/-- The state of the block (10_state.md). -/
structure State where
  /-- The parameters, fixed at construction (00_scope.md R9). -/
  cfg : Config
  /-- The register file R0 to R7 (R30). -/
  x : Vector Word 8
  /-- PC (R35). -/
  pc : Word
  /-- SP (R39). -/
  sp : Word
  /-- FLAGS; bit 0 is Z (R40). -/
  flags : Word
  /-- The state of the two-state machine (R44). -/
  halted : Bool
  /-- RAM (R47). -/
  ram : Memory
  /-- DEVMAP, in registration order (R50). -/
  devmap : List DeviceMapping
  /-- BP, in rising address order (R51). -/
  bp : List Word
  /-- The answers of the host input stream that no IN has taken yet, oldest first (R63; 00_scope.md R10). -/
  inp : List InputAnswer
  /-- The values OUT has emitted, oldest first (R63; 00_scope.md R10). -/
  out : List Word
  /-- The device accesses made, oldest first (20_memory.md R94): the model's own field, what DEV_ORACLE's
  free answers are a function of. -/
  devLog : List DeviceEvent
  /-- The report of the last step: the model's own field (R52, R64). -/
  status : Status
  /-- The refusal mark of the run: a refusal has been met (60_exceptions.md R305, 40_cycle.md R180). -/
  refusalMark : Bool
deriving DecidableEq, Repr

/-- The machine right after construction with the default configuration (10_state.md R55, 70_reset_and_hazards.md
R350, R351). RAM lists nothing: INIT_RAM is all zero (DESIGN CHOICE, notes/assumptions/1.md). -/
def State.reset : State where
  cfg := defaultConfig
  x := Vector.replicate 8 0
  pc := 0
  sp := BitVec.ofNat 32 (defaultConfig.memSize - 4)
  flags := 0
  halted := false
  ram := []
  devmap := []
  bp := []
  inp := []
  out := []
  devLog := []
  status := .idle
  refusalMark := false

/-- The three outcomes of one step of this machine. -/
abbrev StepResult := Host.Outcome State Fault Refusal

end Sys2Proof.Machine
end

