-- ==== Sys2Proof/Machine/Flags.lean ====
section
/-! DEFINITION. The FLAGS register (10_state.md R40 to R42). Z is its one flag; no instruction computes another. -/

namespace Sys2Proof.Machine

/-- `{FLAGS[31:1], z}`: bit 0 is written and bits 31:1 keep their value (R41). -/
def withZ (flags : Word) (z : Bool) : Word :=
  flags.extractLsb' 1 31 ++ BitVec.ofBool z

/-- Z is FLAGS[0] (R40). -/
def State.z (s : State) : Bool :=
  s.flags.getLsbD 0

/-- Write Z and nothing else (R41). -/
def State.putZ (s : State) (z : Bool) : State :=
  { s with flags := withZ s.flags z }

/-- `setZ(v)` (R41): Z becomes 1 exactly when `v` is 0. -/
def State.setZ (s : State) (v : Word) : State :=
  s.putZ (v == 0)

end Sys2Proof.Machine
end

