-- ==== Sys2Proof/Machine/Ops.lean ====
section
/-! DEFINITION. The named operations over registers, memory and the bus, and the ways a step ends: completing, taking an
execution fault (60_exceptions.md R302), and waiting on the input stream. There is no trap entry and no return
from one on this hardware (R320, R321): an execution fault halts. -/

namespace Sys2Proof.Machine

/-! Registers (10_state.md R30, R31). -/

/-- The register a field's byte names, or `none` for 8 to 255 (R31). -/
def regIndex (r : Byte) : Option (Fin 8) :=
  if h : r.toNat < 8 then some ⟨r.toNat, h⟩ else none

/-- The field byte that names a register. -/
def regField (r : Fin 8) : Byte :=
  BitVec.ofNat 8 r.val

/-- `x[i]` (00_scope.md R13). -/
def State.reg (s : State) (i : Fin 8) : Word :=
  s.x[i]

/-- `x[i] <- v` (00_scope.md R13). -/
def State.setReg (s : State) (i : Fin 8) (v : Word) : State :=
  { s with x := s.x.set i v }

/-! How a step ends. -/

/-- The instruction completes with outcome `Executed` (40_cycle.md R180) and PC at `pc`. -/
def State.complete (s : State) (pc : Word) : StepResult :=
  .next { s with pc := pc, status := .executed }

/-- The instruction completes and PC moves past its `size` bytes, modulo 2^32 (10_state.md R36, R177). -/
def State.advance (s : State) (size : Nat) : StepResult :=
  s.complete (s.pc + BitVec.ofNat 32 size)

/-- The state an execution fault leaves: halted, and nothing else changed but the reported code (R302). -/
def State.faulted (s : State) (code : ExecFault) : State :=
  { s with halted := true, status := .execFault code }

/-- `raise ExecFault(code)` (60_exceptions.md R302): taking an execution fault. -/
def State.raise (s : State) (code : ExecFault) : StepResult :=
  .next (s.faulted code)

/-- IN waits on the input stream (45_io_halt.md R283): no state changes but the reported phase (10_state.md R52). -/
def State.wait (s : State) : StepResult :=
  .next { s with status := .waitIn }

/-- What a refusal does (60_exceptions.md R305, 40_cycle.md R180): no state of the block changes, and the model marks the
state refused. The mark is never taken back (notes/assumptions/26.md). -/
def State.markRefused (s : State) : State :=
  { s with refusalMark := true }

/-- The check of one register field (40_cycle.md R175), and the instruction's work on the register it names. -/
def withReg (r : Byte) (s : State) (k : Fin 8 → StepResult) : StepResult :=
  match regIndex r with
  | some i => k i
  | none => s.raise .invalidRegister

/-! The bus multiplexer (20_memory.md R72 to R79). -/

/-- `base <= a < base + size` (R72), on unbounded integers. -/
def DeviceMapping.contains (m : DeviceMapping) (a : Nat) : Bool :=
  decide (m.base.toNat ≤ a) && decide (a < m.base.toNat + m.size)

/-- Where an access goes (R72). -/
inductive Target where
  | device (dev off : Nat)
  | ram
deriving DecidableEq, Repr

/-- `Resolve(addr)` (R72): the device whose window contains the start address, else RAM. -/
def resolve (devmap : List DeviceMapping) (a : Nat) : Target :=
  match devmap.find? (fun m => m.contains a) with
  | some m => .device m.dev (a - m.base.toNat)
  | none => .ram

/-- `MemRead(addr, 4)` (R73, R76, R77): the value, and the state with the device access recorded. -/
def State.memRead (s : State) (addr : Word) : Except Fault (Word × State) :=
  match resolve s.devmap addr.toNat with
  | .device dev off =>
    match Config.deviceRead s.devLog dev off with
    | .value v => .ok (v, { s with devLog := s.devLog ++ [.read dev off v] })
    | .failure => .error .deviceFault
  | .ram =>
    if addr.toNat + 4 > s.cfg.memSize then .error .memOutOfRange
    else .ok (s.ram.readWord addr.toNat, s)

/-- `MemWrite(addr, 4, v)` (R78, R76, R77): the state after the write. -/
def State.memWrite (s : State) (addr : Word) (v : Word) : Except Fault State :=
  match resolve s.devmap addr.toNat with
  | .device dev off =>
    if Config.deviceAccepts s.devLog dev off v then
      .ok { s with devLog := s.devLog ++ [.write dev off v] }
    else .error .deviceFault
  | .ram =>
    if addr.toNat + 4 > s.cfg.memSize then .error .memOutOfRange
    else .ok { s with ram := s.ram.writeWord addr.toNat v }

/-! The stack (44_stack.md). -/

/-- The stack part of PUSH and CALL (R260, R264): check, write below SP, move SP down, then go to `pc`. -/
def State.pushWord (s : State) (v : Word) (pc : Word) : StepResult :=
  if s.sp.toNat < 4 then s.raise .stackOverflow
  else
    match s.memWrite (s.sp - 4) v with
    | .error e => .fault e
    | .ok s' => { s' with sp := s.sp - 4 }.complete pc

/-- The stack part of POP and RET (R262, R266): check, read at SP, move SP up, then go on with the value. -/
def State.popWord (s : State) (k : Word → State → StepResult) : StepResult :=
  if s.sp.toNat + 4 > s.cfg.memSize then s.raise .stackUnderflow
  else
    match s.memRead s.sp with
    | .error e => .fault e
    | .ok (v, s') => k v { s' with sp := s.sp + 4 }

/-! The numbers of the codes (60_exceptions.md R301). -/

/-- The code of an execution fault (R301). -/
def ExecFault.code : ExecFault → Nat
  | .invalidRegister => 1
  | .stackOverflow => 2
  | .stackUnderflow => 3
  | .unimplementedOpcode => 4
  | .inputFailure => 5

/-- The code of a structural error (R301). -/
def Fault.code : Fault → Nat
  | .decodeOutOfRange => 16
  | .memOutOfRange => 17
  | .deviceFault => 18

/-- The code of the spec's own refusal (R301, R305); the table numbers no other. -/
def Refusal.code : Refusal → Option Nat
  | .deviceFetch => some 32
  | _ => none

end Sys2Proof.Machine
end

