-- ==== Sys2Proof/Machine/Alu.lean ====
section
/-! DEFINITION. The arithmetic, logic and compare instructions ADD, SUB, AND, OR, XOR and CMP (42_alu.md). -/

namespace Sys2Proof.Machine

/-- `reg[d] = op(reg[a], reg[b])`, Z from the result: the shape the five three-register instructions share (42_alu.md
R220 to R228, R232). The operands are read before the write. -/
def aluOp (f : Word → Word → Word) (d a b : Byte) (s : State) : StepResult :=
  withReg d s fun d =>
  withReg a s fun a =>
  withReg b s fun b =>
    ((s.setReg d (f (s.reg a) (s.reg b))).setZ (f (s.reg a) (s.reg b))).advance 4

/-- ADD (R220): modulo 2^32. -/
def execAdd (d a b : Byte) (s : State) : StepResult :=
  aluOp (fun u v => u + v) d a b s

/-- SUB (R222): modulo 2^32; `a` is the minuend. -/
def execSub (d a b : Byte) (s : State) : StepResult :=
  aluOp (fun u v => u - v) d a b s

/-- AND (R224). -/
def execAnd (d a b : Byte) (s : State) : StepResult :=
  aluOp (fun u v => u &&& v) d a b s

/-- OR (R226). -/
def execOr (d a b : Byte) (s : State) : StepResult :=
  aluOp (fun u v => u ||| v) d a b s

/-- XOR (R228). -/
def execXor (d a b : Byte) (s : State) : StepResult :=
  aluOp (fun u v => u ^^^ v) d a b s

/-- CMP (R230): Z becomes 1 exactly when the two registers are equal. -/
def execCmp (a b : Byte) (s : State) : StepResult :=
  withReg a s fun a =>
  withReg b s fun b =>
    (s.putZ (s.reg a == s.reg b)).advance 3

end Sys2Proof.Machine
end

