-- ==== Sys2Proof/Machine/Control.lean ====
section
/-! DEFINITION. The jumps JMP, JZ and JNZ (43_control.md). A target is not checked by the jump (R240); a bad one shows
at the next fetch. -/

namespace Sys2Proof.Machine

/-- JMP (R240). -/
def execJmp (t : Word) (s : State) : StepResult :=
  s.complete t

/-- A conditional jump: to `t` when `taken`, else past its five bytes (R242, R244). -/
def branch (taken : Bool) (t : Word) (s : State) : StepResult :=
  if taken then s.complete t else s.advance 5

/-- JZ (R242). -/
def execJz (t : Word) (s : State) : StepResult :=
  branch s.z t s

/-- JNZ (R244). -/
def execJnz (t : Word) (s : State) : StepResult :=
  branch (!s.z) t s

end Sys2Proof.Machine
end

