-- ==== Sys2Proof/Machine/Operands.lean ====
section
/-! DEFINITION. The operand forms (30_encoding.md R117): a register (`withReg`, Ops.lean), a 32-bit immediate and a
32-bit absolute address (used as they are, R114, R116), and a 16-bit offset added to a base register. -/

namespace Sys2Proof.Machine

/-- The effective address of LOAD and STORE, `x[b] +32 ext(off)` (41_data_transfer.md R203, R206; R115, D5): it wraps
modulo 2^32. -/
def State.effAddr (s : State) (b : Fin 8) (off : Half) : Word :=
  s.reg b + extendOffset s.cfg.offsetExt off

end Sys2Proof.Machine
end

