-- ==== Sys2Proof/Machine/DataTransfer.lean ====
section
/-! DEFINITION. The data transfer instructions LOADI, LOAD and STORE (41_data_transfer.md). -/

namespace Sys2Proof.Machine

/-- LOADI (R200). -/
def execLoadi (d : Byte) (imm : Word) (s : State) : StepResult :=
  withReg d s fun d =>
    ((s.setReg d imm).setZ imm).advance 6

/-- LOAD (R203). -/
def execLoad (d b : Byte) (off : Half) (s : State) : StepResult :=
  withReg d s fun d =>
  withReg b s fun b =>
    match s.memRead (s.effAddr b off) with
    | .error e => .fault e
    | .ok (v, s') => ((s'.setReg d v).setZ v).advance 5

/-- STORE (R206). -/
def execStore (b r : Byte) (off : Half) (s : State) : StepResult :=
  withReg b s fun b =>
  withReg r s fun r =>
    match s.memWrite (s.effAddr b off) (s.reg r) with
    | .error e => .fault e
    | .ok s' => s'.advance 5

end Sys2Proof.Machine
end

