-- ==== Sys2Proof/Machine/HostIo.lean ====
section
/-! DEFINITION. The host I/O and halt instructions OUT, IN and HALT (45_io_halt.md). -/

namespace Sys2Proof.Machine

/-- `HostOut(v)` (00_scope.md R13): append to the output stream. -/
def State.emit (s : State) (v : Word) : State :=
  { s with out := s.out ++ [v] }

/-- OUT (R280): it never blocks and never fails. -/
def execOut (r : Byte) (s : State) : StepResult :=
  withReg r s fun r =>
    (s.emit (s.reg r)).advance 2

/-- IN (R283). The register check precedes the wait (40_cycle.md R175). With no answer the step waits: it changes
nothing and a later step asks again. An answer, value or failure, is taken from the stream. -/
def execIn (d : Byte) (s : State) : StepResult :=
  withReg d s fun d =>
    match s.inp with
    | [] => s.wait
    | .value v :: rest => (({ s with inp := rest }.setReg d v).setZ v).advance 2
    | .failure :: rest => { s with inp := rest }.raise .inputFailure

/-- HALT (R286): PC stays at the HALT unless HALT_ADVANCES_PC. -/
def execHalt (s : State) : StepResult :=
  { s with halted := true }.complete (if s.cfg.haltAdvancesPc then s.pc + 1 else s.pc)

end Sys2Proof.Machine
end

