-- ==== Sys2Proof/Machine/Stack.lean ====
section
/-! DEFINITION. The stack and subroutine instructions PUSH, POP, CALL and RET (44_stack.md). -/

namespace Sys2Proof.Machine

/-- PUSH (R260). -/
def execPush (r : Byte) (s : State) : StepResult :=
  withReg r s fun r =>
    s.pushWord (s.reg r) (s.pc + 2)

/-- POP (R262). -/
def execPop (d : Byte) (s : State) : StepResult :=
  withReg d s fun d =>
    s.popWord fun v s' => ((s'.setReg d v).setZ v).advance 2

/-- CALL (R264): the return address is the byte after the five of the CALL. -/
def execCall (t : Word) (s : State) : StepResult :=
  s.pushWord (s.pc + 5) t

/-- RET (R266). -/
def execRet (s : State) : StepResult :=
  s.popWord fun t s' => s'.complete t

end Sys2Proof.Machine
end

