-- ==== Sys2Proof/Machine/Fetch.lean ====
section
/-! DEFINITION. Instruction fetch and decode from RAM (20_memory.md R84, 30_encoding.md R131). -/

namespace Sys2Proof.Machine

/-- How a fetch ends without a record: `DecodeError` (R131) or the refusal of R84. -/
inductive FetchStop where
  | decodeOutOfRange
  | deviceFetch
deriving DecidableEq, Repr

/-- `FetchByte(a)` (R84): the RAM byte, or `none` where `a` lies in a device window. -/
def State.fetchByte (s : State) (a : Nat) : Option Byte :=
  match resolve s.devmap a with
  | .ram => some (s.ram.read a)
  | .device _ _ => none

/-- `n` instruction bytes from `a` upwards, in address order (60_exceptions.md R316). -/
def State.fetchBytes (s : State) (a : Nat) : Nat → Option (List Byte)
  | 0 => some []
  | n + 1 =>
    match s.fetchByte a with
    | none => none
    | some b => (s.fetchBytes (a + 1) n).map (b :: ·)

/-- `Decode(pc)` (R131) with the order of checks of 60_exceptions.md R316: PC against the memory's end, the opcode
byte, the opcode, the instruction's end against the memory's end, the operand bytes. -/
def State.decodeAt (s : State) (pc : Nat) : Except FetchStop DecodeRecord :=
  if pc ≥ s.cfg.memSize then .error .decodeOutOfRange
  else
    match s.fetchByte pc with
    | none => .error .deviceFetch
    | some op =>
      match s.cfg.opcodes.lookup op with
      | none => .ok (unknownRecord op)
      | some mn =>
        if pc + mn.size > s.cfg.memSize then .error .decodeOutOfRange
        else
          match s.fetchBytes pc mn.size with
          | none => .error .deviceFetch
          | some bs =>
            match decode s.cfg.opcodes bs with
            | .ok D => .ok D
            | .error .outOfRange => .error .decodeOutOfRange

/-- The stop of a step whose fetch gave no record (R303, R305). -/
def FetchStop.stop : FetchStop → StepResult
  | .decodeOutOfRange => .fault .decodeOutOfRange
  | .deviceFetch => .refused .deviceFetch

/-- Store the bits of an opcode-table row from PC upwards, where the next fetch reads; the bytes that would lie past
the memory's end are left out. -/
def State.storeFetchBytes (s : State) (nbits w : Nat) : State :=
  { s with
    ram := s.ram.writeBytes s.pc.toNat
      ((tableWordBytes nbits w).take (s.cfg.memSize - s.pc.toNat)) }

end Sys2Proof.Machine
end

