-- ==== Sys2Proof/Machine/Cycle.lean ====
section
/-! DEFINITION. One step of the machine (40_cycle.md R173). -/

namespace Sys2Proof.Machine

/-- `AlreadyHalted` (R172): nothing happens; the outcome is reported. -/
def State.stayHalted (s : State) : StepResult :=
  .next { s with status := .alreadyHalted }

/-- Lines 3 to 6 of R173: a decoded record runs, and an unknown opcode is an execution fault (60_exceptions.md R309). -/
def State.runRecord (s : State) (D : DecodeRecord) : StepResult :=
  match D.instr with
  | none => s.raise .unimplementedOpcode
  | some i => exec i s

/-- `Step()` (R173). -/
def State.cycle (s : State) : StepResult :=
  if s.halted then s.stayHalted
  else
    match s.decodeAt s.pc.toNat with
    | .error e => e.stop
    | .ok D => s.runRecord D

end Sys2Proof.Machine
end

