-- ==== Sys2Proof/Machine/Step.lean ====
section
/-! DEFINITION. The step under the host's fixed name, and the state whose next fetch reads given bits. -/

namespace Sys2Proof.Machine

/-- One step (40_cycle.md R171, R173). -/
def step (s : State) : Host.Outcome State Fault Refusal :=
  s.cycle

/-- `s` with the instruction whose bits are `w` stored at PC, where the next step fetches (notes/assumptions/13.md). -/
def State.withFetchWord (s : State) (nbits w : Nat) : State :=
  s.storeFetchBytes nbits w

end Sys2Proof.Machine
end

