-- ==== Sys2Proof/Machine/Disassembler.lean ====
section
/-! DEFINITION. The disassembly of a decoded record (30_encoding.md R133, R155 to R157). -/

namespace Sys2Proof.Machine

/-- The decimal digit character of a number below 10. -/
def digitChar (n : Nat) : Char :=
  Char.ofNat (48 + n % 10)

/-- The decimal digits of `n`, at most `k` of them, before `acc`. -/
def decimalDigits : (k : Nat) → (n : Nat) → List Char → List Char
  | 0, _, acc => acc
  | k + 1, n, acc =>
    if n / 10 = 0 then digitChar n :: acc else decimalDigits k (n / 10) (digitChar n :: acc)

/-- Unsigned decimal of a number below 2^32, which has at most ten digits (R156). -/
def decimal (n : Nat) : List Char :=
  decimalDigits 10 n []

/-- The mnemonic in capitals (00_scope.md R14, R2). -/
def mnemonicText : Mnemonic → List Char
  | .halt => "HALT".toList
  | .ret => "RET".toList
  | .loadi => "LOADI".toList
  | .load => "LOAD".toList
  | .store => "STORE".toList
  | .add => "ADD".toList
  | .sub => "SUB".toList
  | .and => "AND".toList
  | .or => "OR".toList
  | .xor => "XOR".toList
  | .cmp => "CMP".toList
  | .push => "PUSH".toList
  | .pop => "POP".toList
  | .out => "OUT".toList
  | .inp => "IN".toList
  | .jmp => "JMP".toList
  | .jz => "JZ".toList
  | .jnz => "JNZ".toList
  | .call => "CALL".toList

/-- A register operand: `R` and its byte value in decimal (R156). -/
def regText (r : Byte) : List Char :=
  'R' :: decimal r.toNat

/-- The operands of each format in the order of R144 (R156). -/
def operandTexts (fmt : Format) (D : DecodeRecord) : List (List Char) :=
  match fmt with
  | .n => []
  | .ri => [regText D.r1, decimal D.imm.toNat]
  | .rro => [regText D.r1, regText D.r2, decimal D.off.toNat]
  | .rrr => [regText D.r1, regText D.r2, regText D.r3]
  | .rr => [regText D.r1, regText D.r2]
  | .r => [regText D.r1]
  | .a => [decimal D.imm.toNat]

/-- Operands joined by comma and one space, after one space (R156); none gives nothing. -/
def joinOperands : List (List Char) → List Char
  | [] => []
  | [t] => ' ' :: t
  | t :: ts => ' ' :: t ++ ',' :: joinOperands ts

/-- The text of a record (R156, R157). -/
def recordText (D : DecodeRecord) : List Char :=
  match D.mnem with
  | none => "UNIMPLEMENTED ".toList ++ decimal D.op.toNat
  | some mn => mnemonicText mn ++ joinOperands (operandTexts mn.format D)

/-- Disassembly at an address, through the decoder the step uses (R133); a `DecodeError` renders nothing and is
reported (R157). -/
def disassembleAt (pc : Nat) (s : State) : Except FetchStop (List Char) :=
  match s.decodeAt pc with
  | .error e => .error e
  | .ok D => .ok (recordText D)

end Sys2Proof.Machine
end

