-- ==== Sys2Proof/Machine/HostAccess.lean ====
section
/-! DEFINITION. Host operations that read or write state directly: the register accessors (10_state.md R65), raw memory
access (20_memory.md R85), device registration (20_memory.md R80), the breakpoint set (40_cycle.md R187, R191), and
the input stream's host end (10_state.md R63). -/

namespace Sys2Proof.Machine

/-- The errors of host operations (60_exceptions.md R301, R304). A failed operation changes no state. -/
inductive HostError where
  | memOutOfRange
  | badRegisterIndex
  | deviceOverlap
  | deviceBadRange
  | bpFull
  | loadTooLarge
  | headerTruncated
  | headerBadVersion
  | headerSizeMismatch
  | headerChecksumMismatch
  | snapBadMagic
  | snapRegcountMismatch
  | snapMemsizeMismatch
  | snapTruncated
  | snapTrailingBytes
deriving DecidableEq, Repr

/-- The code of a host-operation error (R301). -/
def HostError.code : HostError → Nat
  | .memOutOfRange => 48
  | .badRegisterIndex => 49
  | .deviceOverlap => 50
  | .deviceBadRange => 51
  | .bpFull => 52
  | .loadTooLarge => 53
  | .headerTruncated => 54
  | .headerBadVersion => 55
  | .headerSizeMismatch => 56
  | .headerChecksumMismatch => 57
  | .snapBadMagic => 58
  | .snapRegcountMismatch => 59
  | .snapMemsizeMismatch => 60
  | .snapTruncated => 61
  | .snapTrailingBytes => 62

/-! Register accessors (R65). -/

/-- `getReg(i)` (R65). -/
def getReg (i : Nat) (s : State) : Except HostError Word :=
  if h : i < 8 then .ok s.x[i] else .error .badRegisterIndex

/-- `setReg(i, v)` (R65): it does not change FLAGS, PC, SP or halted. -/
def setReg (i : Nat) (v : Word) (s : State) : Except HostError State :=
  if h : i < 8 then .ok { s with x := s.x.set i v } else .error .badRegisterIndex

/-! Raw memory access (R85): RAM bytes, past the devices, with no partial access. -/

/-- `memRead(addr, len)` (R85). -/
def hostMemRead (addr len : Nat) (s : State) : Except HostError (List Byte) :=
  if addr + len > s.cfg.memSize then .error .memOutOfRange
  else .ok (s.ram.readBytes addr len)

/-- `memWrite(addr, bytes)` (R85). -/
def hostMemWrite (addr : Nat) (bytes : List Byte) (s : State) : Except HostError State :=
  if addr + bytes.length > s.cfg.memSize then .error .memOutOfRange
  else .ok { s with ram := s.ram.writeBytes addr bytes }

/-! Device registration (R80). -/

/-- Two windows overlap (R80), on unbounded integers. -/
def DeviceMapping.overlaps (m n : DeviceMapping) : Bool :=
  decide (n.base.toNat < m.base.toNat + m.size) && decide (m.base.toNat < n.base.toNat + n.size)

/-- Registering a mapping (R80): the overlap is checked before the range (notes/assumptions/11.md). -/
def registerDevice (m : DeviceMapping) (s : State) : Except HostError State :=
  if s.devmap.any (fun old => old.overlaps m) then .error .deviceOverlap
  else if m.size = 0 ∨ m.base.toNat + m.size > 2 ^ 32 then .error .deviceBadRange
  else .ok { s with devmap := s.devmap ++ [m] }

/-- The legal device maps (R50, R80): no window is empty or runs past 2^32, and no two overlap. -/
def devmapOk : List DeviceMapping → Bool
  | [] => true
  | m :: rest =>
    decide (0 < m.size) && decide (m.base.toNat + m.size ≤ 2 ^ 32) &&
      rest.all (fun n => !m.overlaps n) && devmapOk rest

/-! The breakpoint set (10_state.md R51, 40_cycle.md R187, R191). -/

/-- The canonical form of the set: rising addresses, so none twice (R51). -/
def bpOk : List Word → Bool
  | [] => true
  | a :: rest => rest.all (fun b => decide (a.toNat < b.toNat)) && bpOk rest

/-- `BP ∪ {a}`, in rising order. -/
def insertAddr (a : Word) : List Word → List Word
  | [] => [a]
  | b :: rest =>
    if a.toNat < b.toNat then a :: b :: rest
    else if a = b then b :: rest
    else b :: insertAddr a rest

/-- The breakpoint comparator: `PC in BP` (R187). -/
def State.atBreakpoint (s : State) : Bool :=
  s.bp.contains s.pc

/-- A finite BP_MAX is reached (R191). -/
def State.bpIsFull (s : State) : Bool :=
  match s.cfg.bpMax with
  | none => false
  | some n => decide (n ≤ s.bp.length)

/-- `addBreakpoint(a)` (R191). -/
def addBreakpoint (a : Word) (s : State) : Except HostError State :=
  if s.bp.contains a then .ok s
  else if s.bpIsFull then .error .bpFull
  else .ok { s with bp := insertAddr a s.bp }

/-- `removeBreakpoint(a)` (R191). -/
def removeBreakpoint (a : Word) (s : State) : State :=
  { s with bp := s.bp.filter (fun b => b != a) }

/-! The input stream (R63). -/

/-- The host's console answers one read of the input stream (R63, 45_io_halt.md R284). It may do so while an IN
waits. -/
def supplyInput (a : InputAnswer) (s : State) : State :=
  { s with inp := s.inp ++ [a] }

end Sys2Proof.Machine
end

