-- ==== Sys2Proof/Machine/Loader.lean ====
section
/-! DEFINITION. Construction, reset, the program header and program loading (70_reset_and_hazards.md R350 to R366), and
header emission (30_encoding.md R148). -/

namespace Sys2Proof.Machine

/-! Construction and reset. -/

/-- `powerOn()` (R350): the CPU's reset. RAM, DEVMAP and BP keep their values. -/
def powerOn (s : State) : State :=
  { s with
    x := Vector.replicate 8 0
    pc := 0
    sp := BitVec.ofNat 32 (s.cfg.memSize - 4)
    flags := 0
    halted := false
    status := .idle }

/-- Construction of an Instance (R351) with its parameters and INIT_RAM, the bytes of RAM from address 0; bytes it does
not give are 0. -/
def construct (cfg : Config) (initRam : List Byte) : State where
  cfg := cfg
  x := Vector.replicate 8 0
  pc := 0
  sp := BitVec.ofNat 32 (cfg.memSize - 4)
  flags := 0
  halted := false
  ram := Memory.ofBytes 0 (initRam.take cfg.memSize)
  devmap := []
  bp := []
  inp := []
  out := []
  devLog := []
  status := .idle
  refusalMark := false

/-! The program header (R360 to R366). -/

/-- The magic `V`, `M`, `B`, `1` (R360; the byte values are K1 of 93_implementation_defined.md). -/
def headerMagic : List Byte :=
  [0x56, 0x4D, 0x42, 0x31]

/-- The two running sums of Adler-32 (R364; K3 of 93_implementation_defined.md). -/
def adlerSums (a b : Nat) : List Byte → Nat × Nat
  | [] => (a, b)
  | p :: ps => adlerSums ((a + p.toNat) % 65521) ((b + (a + p.toNat) % 65521) % 65521) ps

/-- Adler-32 of a byte string (R364): `(B << 16) | A`. -/
def adler32 (p : List Byte) : Word :=
  let ab := adlerSums 1 0 p
  (BitVec.ofNat 32 ab.2 <<< 16) ||| BitVec.ofNat 32 ab.1

/-- The u32 whose bytes start at offset `k` of a byte string (R360). -/
def wordAt (bs : List Byte) (k : Nat) : Word :=
  le32 (bs.getD k 0) (bs.getD (k + 1) 0) (bs.getD (k + 2) 0) (bs.getD (k + 3) 0)

/-- The verification of a v2 header (R362): the size first, then the checksum. -/
def verifyHeader (bytes payload : List Byte) : Except HostError Unit :=
  if (wordAt bytes 12).toNat ≠ payload.length then .error .headerSizeMismatch
  else if wordAt bytes 16 ≠ adler32 payload then .error .headerChecksumMismatch
  else .ok ()

/-- The header's size by its version (R360, R361). -/
def headerSize (version : Word) : Option Nat :=
  if version = 1 then some 12 else if version = 2 then some 20 else none

/-- `ParseProgram(bytes)` (R361): the payload and the entry point. -/
def parseProgram (verify : Bool) (bytes : List Byte) : Except HostError (List Byte × Word) :=
  if bytes.length < 4 ∨ bytes.take 4 ≠ headerMagic then .ok (bytes, 0)
  else if bytes.length < 8 then .error .headerTruncated
  else
    match headerSize (wordAt bytes 4) with
    | none => .error .headerBadVersion
    | some hsize =>
      if bytes.length < hsize then .error .headerTruncated
      else if wordAt bytes 4 = 2 ∧ verify then
        match verifyHeader bytes (bytes.drop hsize) with
        | .error e => .error e
        | .ok () => .ok (bytes.drop hsize, wordAt bytes 8)
      else .ok (bytes.drop hsize, wordAt bytes 8)

/-- The state after a checked program load (R356): RAM is the payload and zeros, the CPU is reset, and PC is the entry
point when that is not 0. -/
def loadedState (payload : List Byte) (entry : Word) (s : State) : State :=
  let s' := powerOn { s with ram := Memory.ofBytes 0 payload }
  if entry ≠ 0 then { s' with pc := entry } else s'

/-- `loadProgramBytes(bytes)` (R355, R356): every check precedes the first change. -/
def loadProgramBytes (bytes : List Byte) (s : State) : Except HostError State :=
  match parseProgram s.cfg.verify bytes with
  | .error e => .error e
  | .ok (payload, entry) =>
    if payload.length > s.cfg.memSize then .error .loadTooLarge
    else .ok (loadedState payload entry s)

/-- A v2 header with its payload (30_encoding.md R148; R360, R365). DESIGN CHOICE (notes/assumptions/25.md): the spec does
not say what is emitted for a payload of 2^32 bytes or more, which the 32-bit payloadSize cannot count; here payloadSize
is then the length modulo 2^32, with no error. -/
def emitHeader (entry : Word) (payload : List Byte) : List Byte :=
  headerMagic ++ wordBytes 2 ++ wordBytes entry ++ wordBytes (BitVec.ofNat 32 payload.length) ++
    wordBytes (adler32 payload) ++ payload

end Sys2Proof.Machine
end

