-- ==== Sys2Proof/Machine/Assembler.lean ====
section
/-! DEFINITION. The assembler, as the contract that fixes the programs' text (30_encoding.md R135, R140 to R149): two
passes over the lines of a text, given as its characters. -/

namespace Sys2Proof.Machine

/-- The errors that abort assembly (R147). -/
inductive AsmError where
  | unknownMnemonic
  | wrongOperandCount
  | invalidRegister
  | unresolvedLabel
  | duplicateLabel
  | valueOutOfRange
deriving DecidableEq, Repr

/-- The label table: each label and its address (R140, R142). -/
abbrev LabelTable := List (List Char × Nat)

/-! Lexical rules (R141). -/

/-- Split a text at its line ends. -/
def splitLines : List Char → List (List Char)
  | [] => [[]]
  | c :: cs =>
    if c = '\n' then [] :: splitLines cs
    else
      match splitLines cs with
      | [] => [[c]]
      | l :: ls => (c :: l) :: ls

/-- A comment runs from `;` or `#` to the end of the line (R141). -/
def stripComment (line : List Char) : List Char :=
  line.takeWhile (fun c => c != ';' && c != '#')

/-- White space (R141). -/
def isSpace (c : Char) : Bool :=
  c == ' ' || c == '\t' || c == '\r' || c == '\x0b' || c == '\x0c'

/-- A token delimiter: white space, `,`, `[` or `]` (R141). -/
def isDelimiter (c : Char) : Bool :=
  isSpace c || c == ',' || c == '[' || c == ']'

/-- The first character of an identifier: a letter, `_` or `.` (R141). -/
def isIdentStart (c : Char) : Bool :=
  c.isAlpha || c == '_' || c == '.'

/-- A later character of an identifier (R141). -/
def isIdentPart (c : Char) : Bool :=
  isIdentStart c || c.isDigit

/-- A label definition at the start of a text: an identifier at once followed by `:`; the label and what follows (R141). -/
def takeLabel (line : List Char) : Option (List Char × List Char) :=
  match line.takeWhile isIdentPart, line.dropWhile isIdentPart with
  | c :: cs, ':' :: rest => if isIdentStart c then some (c :: cs, rest) else none
  | _, _ => none

/-- The label definitions a line begins with, and the rest of the line (R141). Each label takes at least two
characters, so as many turns as the line has characters are enough. -/
def takeLabels : (turns : Nat) → List Char → List (List Char) × List Char
  | 0, line => ([], line)
  | turns + 1, line =>
    match takeLabel (line.dropWhile isSpace) with
    | none => ([], line)
    | some (label, rest) =>
      let more := takeLabels turns rest
      (label :: more.1, more.2)

/-- Cut a text at its delimiters, empty pieces included. -/
def splitPieces : List Char → List (List Char)
  | [] => [[]]
  | c :: cs =>
    if isDelimiter c then [] :: splitPieces cs
    else
      match splitPieces cs with
      | [] => [[c]]
      | t :: ts => (c :: t) :: ts

/-- The tokens of a text (R141). -/
def tokensOf (line : List Char) : List (List Char) :=
  (splitPieces line).filter (fun t => !t.isEmpty)

/-- One source line: its labels and its tokens. -/
structure SourceLine where
  labels : List (List Char)
  tokens : List (List Char)
deriving DecidableEq, Repr

/-- Read one line (R141). -/
def readLine (line : List Char) : SourceLine :=
  let text := stripComment line
  let parts := takeLabels text.length text
  { labels := parts.1, tokens := tokensOf parts.2 }

/-- The lines of a source text. -/
def readSource (text : List Char) : List SourceLine :=
  (splitLines text).map readLine

/-- The mnemonic a token names, without regard to case (R141). -/
def mnemonicOf (token : List Char) : Option Mnemonic :=
  allMnemonics.find? (fun mn => mnemonicText mn == token.map Char.toUpper)

/-! Pass 1 (R142). -/

/-- The address of a label in a table. -/
def labelAddress (table : LabelTable) (name : List Char) : Option Nat :=
  (table.find? (fun e => e.1 == name)).map (·.2)

/-- Record the labels of a line at its address; a label defined before is an error (R142). -/
def recordLabels (addr : Nat) (table : LabelTable) : List (List Char) → Except AsmError LabelTable
  | [] => .ok table
  | l :: ls =>
    match labelAddress table l with
    | some _ => .error .duplicateLabel
    | none => recordLabels addr (table ++ [(l, addr)]) ls

/-- The size of a line's instruction; a line with no tokens emits nothing (R141, R142). -/
def lineSize (tokens : List (List Char)) : Except AsmError Nat :=
  match tokens with
  | [] => .ok 0
  | t :: _ =>
    match mnemonicOf t with
    | none => .error .unknownMnemonic
    | some mn => .ok mn.size

/-- Pass 1 (R142): from the running offset `addr`, the label table. -/
def passOne (addr : Nat) (table : LabelTable) : List SourceLine → Except AsmError LabelTable
  | [] => .ok table
  | line :: rest =>
    match recordLabels addr table line.labels with
    | .error e => .error e
    | .ok table' =>
      match lineSize line.tokens with
      | .error e => .error e
      | .ok n => passOne (addr + n) table' rest

/-! Operands (R143 to R146). -/

/-- The value of one digit character in a base up to 16. -/
def digitValue (base : Nat) (c : Char) : Option Nat :=
  let n := c.toNat
  let v :=
    if 48 ≤ n ∧ n ≤ 57 then some (n - 48)
    else if 65 ≤ n ∧ n ≤ 70 then some (n - 55)
    else if 97 ≤ n ∧ n ≤ 102 then some (n - 87)
    else none
  match v with
  | none => none
  | some d => if d < base then some d else none

/-- The number digits stand for, after the digits already read; `none` for a character that is no digit. -/
def digitsFrom (base : Nat) (acc : Nat) : List Char → Option Nat
  | [] => some acc
  | c :: cs =>
    match digitValue base c with
    | none => none
    | some d => digitsFrom base (acc * base + d) cs

/-- The number a non-empty digit string stands for. -/
def digitsValue (base : Nat) (cs : List Char) : Option Nat :=
  match cs with
  | [] => none
  | _ :: _ => digitsFrom base 0 cs

/-- A register token: `R` or `r` and decimal digits, with a number in 0 to 7 (R145). -/
def parseRegister (token : List Char) : Except AsmError Byte :=
  match token with
  | [] => .error .invalidRegister
  | c :: cs =>
    if c = 'R' ∨ c = 'r' then
      match digitsValue 10 cs with
      | none => .error .invalidRegister
      | some n => if n < 8 then .ok (BitVec.ofNat 8 n) else .error .invalidRegister
    else .error .invalidRegister

/-- A literal: decimal with an optional leading `-`, or `0x` or `0X` and hexadecimal digits (R146). -/
def parseLiteral (token : List Char) : Option Int :=
  match digitsValue 10 token with
  | some n => some (Int.ofNat n)
  | none =>
    match token with
    | '-' :: cs => (digitsValue 10 cs).map (fun n => -(Int.ofNat n))
    | '0' :: 'x' :: cs => (digitsValue 16 cs).map Int.ofNat
    | '0' :: 'X' :: cs => (digitsValue 16 cs).map Int.ofNat
    | _ => none

/-- A value, offset or target token: a known label, else a literal (R143, R146). -/
def parseNumber (table : LabelTable) (token : List Char) : Except AsmError Int :=
  match labelAddress table token with
  | some a => .ok (Int.ofNat a)
  | none =>
    match parseLiteral token with
    | some v => .ok v
    | none => .error .unresolvedLabel

/-- A value or target: in -2^31 to 2^32 - 1, encoded modulo 2^32 (R146). -/
def parseWord (table : LabelTable) (token : List Char) : Except AsmError Word :=
  match parseNumber table token with
  | .error e => .error e
  | .ok v => if -(2 ^ 31) ≤ v ∧ v ≤ 2 ^ 32 - 1 then .ok (BitVec.ofInt 32 v) else .error .valueOutOfRange

/-- An offset: in -2^15 to 2^16 - 1, encoded modulo 2^16 (R146). -/
def parseOffset (table : LabelTable) (token : List Char) : Except AsmError Half :=
  match parseNumber table token with
  | .error e => .error e
  | .ok v => if -(2 ^ 15) ≤ v ∧ v ≤ 2 ^ 16 - 1 then .ok (BitVec.ofInt 16 v) else .error .valueOutOfRange

/-- The operand fields of a format from its tokens, in field order (R144). -/
def parseOperands (table : LabelTable) (mn : Mnemonic) (tokens : List (List Char)) :
    Except AsmError DecodeRecord :=
  let D := knownRecord 0 mn
  match mn.format, tokens with
  | .n, [] => .ok D
  | .ri, [a, v] => do
    let r1 ← parseRegister a
    let imm ← parseWord table v
    return { D with r1 := r1, imm := imm }
  | .rro, [a, b, v] => do
    let r1 ← parseRegister a
    let r2 ← parseRegister b
    let off ← parseOffset table v
    return { D with r1 := r1, r2 := r2, off := off }
  | .rrr, [a, b, c] => do
    let r1 ← parseRegister a
    let r2 ← parseRegister b
    let r3 ← parseRegister c
    return { D with r1 := r1, r2 := r2, r3 := r3 }
  | .rr, [a, b] => do
    let r1 ← parseRegister a
    let r2 ← parseRegister b
    return { D with r1 := r1, r2 := r2 }
  | .r, [a] => do
    let r1 ← parseRegister a
    return { D with r1 := r1 }
  | .a, [v] => do
    let imm ← parseWord table v
    return { D with imm := imm }
  | _, _ => .error .wrongOperandCount

/-! Pass 2 (R143) and the assembler's interface (R140, R148). -/

/-- The bytes of one line (R140, R143). -/
def emitLine (m : OpcodeMap) (table : LabelTable) (tokens : List (List Char)) :
    Except AsmError (List Byte) :=
  match tokens with
  | [] => .ok []
  | t :: operands =>
    match mnemonicOf t with
    | none => .error .unknownMnemonic
    | some mn =>
      match parseOperands table mn operands with
      | .error e => .error e
      | .ok D => .ok (encode m (instrOfFields mn D))

/-- Pass 2 (R143): the bytes of the lines, in order. -/
def passTwo (m : OpcodeMap) (table : LabelTable) : List SourceLine → Except AsmError (List Byte)
  | [] => .ok []
  | line :: rest =>
    match emitLine m table line.tokens with
    | .error e => .error e
    | .ok bs =>
      match passTwo m table rest with
      | .error e => .error e
      | .ok more => .ok (bs ++ more)

/-- `assemble(sourceText) -> (bytes, labelTable)` (R140); the first error aborts with no output (R147). -/
def assemble (m : OpcodeMap) (text : List Char) : Except AsmError (List Byte × LabelTable) :=
  match passOne 0 [] (readSource text) with
  | .error e => .error e
  | .ok table =>
    match passTwo m table (readSource text) with
    | .error e => .error e
    | .ok bs => .ok (bs, table)

/-- The entry a header is asked for: none, a number, or a label (R148). -/
inductive EntryRequest where
  | default
  | address (a : Word)
  | label (name : List Char)
deriving DecidableEq, Repr

/-- The entry of a header: 0 unless one is requested (R148, D35). -/
def entryOf (table : LabelTable) (req : EntryRequest) : Except AsmError Word :=
  match req with
  | .default => .ok 0
  | .address a => .ok a
  | .label name =>
    match labelAddress table name with
    | none => .error .unresolvedLabel
    | some a => .ok (BitVec.ofNat 32 a)

/-- Assembly with a v2 header before the payload (R148). -/
def assembleImage (m : OpcodeMap) (text : List Char) (req : EntryRequest) :
    Except AsmError (List Byte) :=
  match assemble m text with
  | .error e => .error e
  | .ok (bs, table) =>
    match entryOf table req with
    | .error e => .error e
    | .ok entry => .ok (emitHeader entry bs)

end Sys2Proof.Machine
end

