-- ==== Sys2Proof/Machine/Run.lean ====
section
/-! DEFINITION. The run controller (40_cycle.md R180 to R192). A run call need not return (R184); the model follows it
for a given number of loop turns. -/

namespace Sys2Proof.Machine

/-- The outcomes of a step (R180). -/
inductive StepOutcome where
  | executed
  | alreadyHalted
  | execFault (code : ExecFault)
  | structError (code : Fault)
  | refused (reason : Refusal)
deriving DecidableEq, Repr

/-- The outcome of a step's result (R180); `none` while an IN waits, which has no outcome until the stream answers. -/
def outcomeOf : StepResult → Option StepOutcome
  | .next t =>
    match t.status with
    | .executed => some .executed
    | .alreadyHalted => some .alreadyHalted
    | .execFault c => some (.execFault c)
    | .waitIn => none
    | .idle => none
  | .fault f => some (.structError f)
  | .refused r => some (.refused r)

/-- The code a step's outcome carries, if it is a fault, an error or a refusal (60_exceptions.md R301). -/
def StepOutcome.code : StepOutcome → Option Nat
  | .executed => none
  | .alreadyHalted => none
  | .execFault c => some c.code
  | .structError f => some f.code
  | .refused r => r.code

/-- The stop reasons of a run call (R188). -/
inductive StopReason where
  | stopHalted
  | stopLimit
  | stopCap
  | stopBreakpoint
  | abort (outcome : StepOutcome)
deriving DecidableEq, Repr

/-- A run call from the inside: the state, the number of `Step()` calls completed (R183), hidden state of the call that its
answer to the host leaves out (10_state.md R52 b), and the stop reason, or `none` while the call has not returned (an IN
waits, or the turns followed are used up). -/
structure RunResult where
  state : State
  steps : Nat
  stop  : Option StopReason
deriving DecidableEq, Repr

/-- A limit of steps is reached; `none` is no limit. -/
def limitReached (limit : Option Nat) (count : Nat) : Bool :=
  match limit with
  | none => false
  | some n => decide (n ≤ count)

/-- Why a run call stops before its next step, if it does: the tests of R181 and, in breakpoint mode, of R186, in their
order. -/
def stopBefore (bpMode : Bool) (limit : Option Nat) (count : Nat) (s : State) : Option StopReason :=
  if s.halted then some .stopHalted
  else if limitReached limit count then some .stopLimit
  else if bpMode && decide (s.cfg.bpStepCap ≤ count) then some .stopCap
  else if bpMode && s.atBreakpoint then some .stopBreakpoint
  else none

/-- The state after a step that a structural error aborted, as the caller goes on from it (60_exceptions.md R303): no state
of the block changes. A failed device access is recorded, so that the device may answer a retry differently
(notes/assumptions/7.md). -/
def State.afterFault (s : State) (f : Fault) : State :=
  match f with
  | .decodeOutOfRange => s
  | .memOutOfRange => s
  | .deviceFault => { s with devLog := s.devLog ++ [.failed] }

/-- The loop of a run call (R181, R186), followed for at most `turns` turns. -/
def runLoop (bpMode : Bool) (limit : Option Nat) : (turns : Nat) → (count : Nat) → State → RunResult
  | 0, count, s => { state := s, steps := count, stop := stopBefore bpMode limit count s }
  | turns + 1, count, s =>
    match stopBefore bpMode limit count s with
    | some r => { state := s, steps := count, stop := some r }
    | none =>
      match step s with
      | .next t =>
        if t.status = .waitIn then { state := t, steps := count, stop := none }
        else runLoop bpMode limit turns (count + 1) t
      | .fault f =>
        { state := s.afterFault f, steps := count + 1, stop := some (.abort (.structError f)) }
      | .refused r =>
        { state := s.markRefused, steps := count + 1, stop := some (.abort (.refused r)) }

/-- The step limit a caller's number means: 0 is unbounded (R181, R186). -/
def limitOf (n : Nat) : Option Nat :=
  if n = 0 then none else some n

/-- The CPU's own `run(maxSteps)` (R181): it never consults the breakpoints (R187). -/
def cpuRun (maxSteps turns : Nat) (s : State) : RunResult :=
  runLoop false (limitOf maxSteps) turns 0 s

/-- `runSteps(n)` (R182, R186): with no breakpoints the CPU's loop, else a breakpoint-mode run. -/
def runSteps (n turns : Nat) (s : State) : RunResult :=
  if s.bp.isEmpty then cpuRun n turns s else runLoop true (limitOf n) turns 0 s

/-- `runUntilHalt()` (R182, R186). -/
def runUntilHalt (turns : Nat) (s : State) : RunResult :=
  if s.bp.isEmpty then cpuRun 0 turns s else runLoop true none turns 0 s

end Sys2Proof.Machine
end

