-- ==== Sys2Proof/Machine/Snapshot.lean ====
section
/-! DEFINITION. Snapshot capture and restore (70_reset_and_hazards.md R370 to R374). -/

namespace Sys2Proof.Machine

/-- The snapshot magic "SNP1" (R370; the byte values are K2 of 93_implementation_defined.md). -/
def snapMagic : List Byte :=
  [0x53, 0x4E, 0x50, 0x31]

/-- A number as a little-endian field of `w` bytes (R370, SNAP_WORD_BYTES). -/
def leBytes (v : Nat) : Nat → List Byte
  | 0 => []
  | w + 1 => BitVec.ofNat 8 v :: leBytes (v / 256) w

/-- The number a little-endian byte string holds. -/
def leNat : List Byte → Nat
  | [] => 0
  | b :: bs => b.toNat + 256 * leNat bs

/-- The number in the `w` bytes at offset `k` of a byte string (R372). -/
def natAt (bs : List Byte) (k w : Nat) : Nat :=
  leNat ((bs.drop k).take w)

/-- `saveSnapshot()` (R370, R371): it changes no state and never fails. -/
def saveSnapshot (s : State) : List Byte :=
  let w := s.cfg.snapWordBytes
  snapMagic ++ wordBytes s.pc ++ wordBytes s.sp ++ wordBytes s.flags ++ leBytes 8 w ++
    s.x.toList.flatMap wordBytes ++ leBytes s.cfg.memSize w ++ s.ram.readBytes 0 s.cfg.memSize

/-- `CheckSnapshot(s)` (R372): field by field, in this order; `none` when every check passes. -/
def checkSnapshot (cfg : Config) (bs : List Byte) : Option HostError :=
  let w := cfg.snapWordBytes
  if bs.length < 4 then some .snapTruncated
  else if bs.take 4 ≠ snapMagic then some .snapBadMagic
  else if bs.length < 16 + w then some .snapTruncated
  else if natAt bs 16 w ≠ 8 then some .snapRegcountMismatch
  else if bs.length < 48 + 2 * w then some .snapTruncated
  else if natAt bs (48 + w) w ≠ cfg.memSize then some .snapMemsizeMismatch
  else if bs.length < 48 + 2 * w + cfg.memSize then some .snapTruncated
  else if bs.length > 48 + 2 * w + cfg.memSize then some .snapTrailingBytes
  else none

/-- The state a checked snapshot restores (R373): halted becomes false; BP and DEVMAP keep their values. -/
def restoredState (bs : List Byte) (s : State) : State :=
  let w := s.cfg.snapWordBytes
  { s with
    pc := wordAt bs 4
    sp := wordAt bs 8
    flags := wordAt bs 12
    x := Vector.ofFn fun i : Fin 8 => wordAt bs (16 + w + 4 * i.val)
    ram := Memory.ofBytes 0 (bs.drop (48 + 2 * w))
    halted := false
    status := .idle }

/-- `loadSnapshot(bytes)` (R372, R373). -/
def loadSnapshot (bs : List Byte) (s : State) : Except HostError State :=
  match checkSnapshot s.cfg bs with
  | some e => .error e
  | none => .ok (restoredState bs s)

end Sys2Proof.Machine
end

