-- ==== Sys2Proof/Machine/HostInterface.lean ====
section
/-! DEFINITION. The host control interface as one transition (10_state.md R60, R61; 60_exceptions.md R332): every operation
applies between steps and is atomic. -/

namespace Sys2Proof.Machine

/-- The host operations (R60, R332). -/
inductive HostOp where
  | powerOn
  | loadProgramBytes (bytes : List Byte)
  | runUntilHalt
  | runSteps (n : Nat)
  | cpuStep
  | cpuRun (maxSteps : Nat)
  | getPC
  | getSP
  | getFlags
  | getReg (i : Nat)
  | setReg (i : Nat) (v : Word)
  | isHalted
  | memRead (addr len : Nat)
  | memWrite (addr : Nat) (bytes : List Byte)
  | addBreakpoint (a : Word)
  | removeBreakpoint (a : Word)
  | breakpoints
  | saveSnapshot
  | loadSnapshot (bytes : List Byte)
  | registerDevice (m : DeviceMapping)
  | disassemble (addr : Nat)
deriving DecidableEq, Repr

/-- What an operation answers. A run call answers its stop reason (40_cycle.md R188; 10_state.md R64). -/
inductive Reply where
  | done
  | word (v : Word)
  | flag (b : Bool)
  | bytes (bs : List Byte)
  | addrs (as : List Word)
  | text (cs : List Char)
  | noText (e : FetchStop)
  | step (o : StepOutcome)
  | run (r : StopReason)
deriving DecidableEq, Repr

/-- How a host operation ends. A failed operation changes no state (60_exceptions.md R304). -/
inductive HostOutcome where
  /-- It returned, with its answer and the state after it. -/
  | returned (r : Reply) (s : State)
  /-- It failed with a host-operation error. -/
  | failed (e : HostError)
  /-- A step or run call has not returned: an IN waits (45_io_halt.md R283), or the turns followed are used up. -/
  | pending (s : State)
  /-- An IN waits, so the machine is inside a step; no host operation applies there (R61, 70_reset_and_hazards.md R392;
  U22 of 93_implementation_defined.md). -/
  | insideStep
deriving DecidableEq, Repr

/-- An operation that answers nothing, or fails. -/
def opResult (r : Except HostError State) : HostOutcome :=
  match r with
  | .ok s => .returned .done s
  | .error e => .failed e

/-- A run call as a host operation: it answers the stop reason (40_cycle.md R188), and its step count is discarded as it
returns (10_state.md R52 b; 40_cycle.md R183). -/
def ofRun (r : RunResult) : HostOutcome :=
  match r.stop with
  | some reason => .returned (.run reason) r.state
  | none => .pending r.state

/-- The CPU's own `step()` as a host operation (D28): a structural error or a refusal changes no state of the block and is
surfaced to the caller, and a refusal marks the run (60_exceptions.md R303, R305). -/
def cpuStep (s : State) : HostOutcome :=
  match step s with
  | .next t =>
    match outcomeOf (.next t) with
    | some o => .returned (.step o) t
    | none => .pending t
  | .fault f => .returned (.step (.structError f)) (s.afterFault f)
  | .refused r => .returned (.step (.refused r)) s.markRefused

/-- One host operation between steps; a run call is followed for at most `turns` turns. -/
def hostOp (turns : Nat) (op : HostOp) (s : State) : HostOutcome :=
  match op with
  | .powerOn => .returned .done (powerOn s)
  | .loadProgramBytes bytes => opResult (loadProgramBytes bytes s)
  | .runUntilHalt => ofRun (runUntilHalt turns s)
  | .runSteps n => ofRun (runSteps n turns s)
  | .cpuStep => cpuStep s
  | .cpuRun n => ofRun (cpuRun n turns s)
  | .getPC => .returned (.word s.pc) s
  | .getSP => .returned (.word s.sp) s
  | .getFlags => .returned (.word s.flags) s
  | .getReg i =>
    match getReg i s with
    | .ok v => .returned (.word v) s
    | .error e => .failed e
  | .setReg i v => opResult (setReg i v s)
  | .isHalted => .returned (.flag s.halted) s
  | .memRead addr len =>
    match hostMemRead addr len s with
    | .ok bs => .returned (.bytes bs) s
    | .error e => .failed e
  | .memWrite addr bytes => opResult (hostMemWrite addr bytes s)
  | .addBreakpoint a => opResult (addBreakpoint a s)
  | .removeBreakpoint a => .returned .done (removeBreakpoint a s)
  | .breakpoints => .returned (.addrs s.bp) s
  | .saveSnapshot => .returned (.bytes (saveSnapshot s)) s
  | .loadSnapshot bytes => opResult (loadSnapshot bytes s)
  | .registerDevice m => opResult (registerDevice m s)
  | .disassemble addr =>
    match disassembleAt addr s with
    | .ok cs => .returned (.text cs) s
    | .error e => .returned (.noText e) s

/-- The host applies one operation (R60, R61): never while an IN waits inside its step. -/
def host (turns : Nat) (op : HostOp) (s : State) : HostOutcome :=
  if s.status = .waitIn then .insideStep else hostOp turns op s

end Sys2Proof.Machine
end

