-- ==== Sys2Proof/Safety.lean ====
section
/-! DEFINITION. The invariant of the machine, which states a run can reach, and what counts as a clean run
(70_reset_and_hazards.md R393). -/

namespace Sys2Proof.Machine

/-- The reported status agrees with the run state: a fault halts (60_exceptions.md R302), only a halted step reports
`AlreadyHalted` (40_cycle.md R172), and IN waits only while running (R170). -/
def statusOk (s : State) : Bool :=
  match s.status with
  | .idle => true
  | .executed => true
  | .alreadyHalted => s.halted
  | .execFault _ => s.halted
  | .waitIn => !s.halted

/-- The breakpoint set holds at most BP_MAX addresses (10_state.md R51). -/
def bpWithinMax (s : State) : Bool :=
  match s.cfg.bpMax with
  | none => true
  | some n => decide (s.bp.length ≤ n)

/-- The invariant: a legal configuration, RAM in canonical form inside 0 to MEM_SIZE - 1, a legal device map, a
breakpoint set within its capacity, and a status that agrees with the run state. -/
def State.inv (s : State) : Bool :=
  configOk s.cfg && s.ram.wf && s.ram.below s.cfg.memSize && devmapOk s.devmap && bpOk s.bp &&
    bpWithinMax s && statusOk s

/-- The states a machine can come to from construction, by steps, host operations and input (10_state.md R60, R61). -/
inductive Reachable (cfg : Config) : State → Prop where
  | constructed (initRam : List Byte) : Reachable cfg (construct cfg initRam)
  | stepped (s t : State) (h : Reachable cfg s) (hs : step s = .next t) : Reachable cfg t
  | operated (s t : State) (turns : Nat) (op : HostOp) (r : Reply) (h : Reachable cfg s)
      (hs : host turns op s = .returned r t) : Reachable cfg t
  | pending (s t : State) (turns : Nat) (op : HostOp) (h : Reachable cfg s)
      (hs : host turns op s = .pending t) : Reachable cfg t
  | supplied (s : State) (a : InputAnswer) (h : Reachable cfg s) : Reachable cfg (supplyInput a s)

/-- `k` steps from `s` all complete, with no execution fault, structural error or refusal, and end in `t`, in a run that has
met no refusal before either (60_exceptions.md R305). -/
def runsClean : Nat → State → State → Prop
  | 0, s, t => s = t ∧ s.refusalMark = false
  | k + 1, s, t => ∃ u, step s = .next u ∧ u.status = .executed ∧ runsClean k u t

/-- A run ends cleanly (R393): it executes at least one step, without a fault, up to a HALT, which leaves the machine
halted. -/
def endsCleanly (s : State) : Prop :=
  ∃ k t, runsClean (k + 1) s t ∧ t.halted = true

end Sys2Proof.Machine
end

