-- ==== Sys2Proof/Certificates/Slice0/Obligations.lean ====
section
/-! DEFINITION. The statements for the provers. Each docstring names the rule of spec/ it formalises; where a clause rests
on a decision the spec marks as its own (D<n> of 92_eei_decisions.md) or on a log entry, the docstring says so. -/

open Sys2Proof Sys2Proof.Machine

namespace Sys2Proof.Statements

/-! What a statement says is unchanged. -/

/-- Every register but `d` is as before. -/
def SameRegsBut (d : Byte) (s t : State) : Prop :=
  ∀ r : Fin 8, regField r ≠ d → t.reg r = s.reg r

/-- Every register is as before. -/
def SameRegs (s t : State) : Prop :=
  ∀ r : Fin 8, t.reg r = s.reg r

/-- Bits 31:1 of FLAGS are as before. -/
def SameHighFlags (s t : State) : Prop :=
  ∀ k, 1 ≤ k → t.flags.getLsbD k = s.flags.getLsbD k

/-- Every byte of RAM reads as before. -/
def SameBytes (s t : State) : Prop :=
  ∀ a, t.ram.read a = s.ram.read a

/-- Every byte outside the four from `a` reads as before. -/
def SameBytesOutside (a : Nat) (s t : State) : Prop :=
  ∀ k, (k < a ∨ a + 4 ≤ k) → t.ram.read k = s.ram.read k

/-- The parameters, the device map and the breakpoints are as before. -/
def SameMaps (s t : State) : Prop :=
  t.cfg = s.cfg ∧ t.devmap = s.devmap ∧ t.bp = s.bp

/-- The parameters, the device map, the breakpoints and the refusal mark are as before. -/
def SameSetup (s t : State) : Prop :=
  SameMaps s t ∧ t.refusalMark = s.refusalMark

/-- An instruction that completed left the run state as it was. -/
def SameRunState (s t : State) : Prop :=
  t.status = .executed → t.halted = s.halted

/-! Ways an instruction ends. -/

/-- The instruction ends in the execution fault `c`: the machine is halted and `c` is reported. -/
def FaultsWith (i : Instr) (c : ExecFault) (s : State) : Prop :=
  ∃ t, exec i s = .next t ∧ t.status = .execFault c ∧ t.halted = true

/-- A running machine whose PC is past the memory's end, or which holds the opcode of `mn` at PC with fewer than `n`
bytes left, aborts with DECODE_OUT_OF_RANGE. -/
def CutAborts (mn : Mnemonic) (n : Nat) : Prop :=
  ∀ s : State, s.halted = false → s.cfg.opcodes.injective = true →
    (s.cfg.memSize ≤ s.pc.toNat ∨
      (resolve s.devmap s.pc.toNat = .ram ∧ s.ram.read s.pc.toNat = s.cfg.opcodes.code mn ∧
        s.cfg.memSize < s.pc.toNat + n)) →
    step s = .fault .decodeOutOfRange

/-- The table of 30_encoding.md R110. -/
def documentedSize : Mnemonic → Nat
  | .halt => 1
  | .ret => 1
  | .loadi => 6
  | .load => 5
  | .store => 5
  | .add => 4
  | .sub => 4
  | .and => 4
  | .or => 4
  | .xor => 4
  | .cmp => 3
  | .push => 2
  | .pop => 2
  | .out => 2
  | .inp => 2
  | .jmp => 5
  | .jz => 5
  | .jnz => 5
  | .call => 5

/-- A jump target that no instruction can be fetched from: past the memory's end, or one leaving too few bytes for the
instruction whose opcode it holds (43_control.md R240). -/
def BadTarget (s : State) (target : Word) : Prop :=
  s.cfg.memSize ≤ target.toNat ∨
    ∃ mn, resolve s.devmap target.toNat = .ram ∧
      s.ram.read target.toNat = s.cfg.opcodes.code mn ∧
      s.cfg.memSize < target.toNat + documentedSize mn

/-- Bits `8k+7 : 8k` of a word. -/
def byteOf (v : Word) (k : Nat) : Byte :=
  v.extractLsb' (8 * k) 8

/-- `x[b] +32 ext(off)` (41_data_transfer.md R203, 30_encoding.md R115), in full. -/
def dataAddress (s : State) (b : Fin 8) (off : Half) : Word :=
  s.reg b +
    (match s.cfg.offsetExt with
      | .zext => off.zeroExtend 32
      | .sext => off.signExtend 32)

/-- The four bytes from `a`, the lowest address in the low bits (20_memory.md R75). -/
def ramWord (s : State) (a : Nat) : Word :=
  s.ram.read (a + 3) ++ s.ram.read (a + 2) ++ s.ram.read (a + 1) ++ s.ram.read a

/-- The four bytes from `a` hold `v`, its low byte at the lowest address (20_memory.md R75). -/
def HoldsWord (t : State) (a : Nat) (v : Word) : Prop :=
  t.ram.read a = byteOf v 0 ∧ t.ram.read (a + 1) = byteOf v 1 ∧
    t.ram.read (a + 2) = byteOf v 2 ∧ t.ram.read (a + 3) = byteOf v 3

/-- A register field outside 0 to 7, per instruction (60_exceptions.md R307). -/
def namesBadRegister : Instr → Prop
  | .loadi d _ => 8 ≤ d.toNat
  | .load d b _ => 8 ≤ d.toNat ∨ 8 ≤ b.toNat
  | .store b s _ => 8 ≤ b.toNat ∨ 8 ≤ s.toNat
  | .add d a b => 8 ≤ d.toNat ∨ 8 ≤ a.toNat ∨ 8 ≤ b.toNat
  | .sub d a b => 8 ≤ d.toNat ∨ 8 ≤ a.toNat ∨ 8 ≤ b.toNat
  | .and d a b => 8 ≤ d.toNat ∨ 8 ≤ a.toNat ∨ 8 ≤ b.toNat
  | .or d a b => 8 ≤ d.toNat ∨ 8 ≤ a.toNat ∨ 8 ≤ b.toNat
  | .xor d a b => 8 ≤ d.toNat ∨ 8 ≤ a.toNat ∨ 8 ≤ b.toNat
  | .cmp a b => 8 ≤ a.toNat ∨ 8 ≤ b.toNat
  | .push s => 8 ≤ s.toNat
  | .pop d => 8 ≤ d.toNat
  | .out s => 8 ≤ s.toNat
  | .inp d => 8 ≤ d.toNat
  | .jmp _ => False
  | .jz _ => False
  | .jnz _ => False
  | .call _ => False
  | .ret => False
  | .halt => False

/-- The rule of one three-register instruction (42_alu.md R220 to R228): its encoding and default code, its result, flags
and PC, and its two exceptions. -/
def AluRule (mn : Mnemonic) (code : Byte) (con : Byte → Byte → Byte → Instr)
    (f : Word → Word → Word) : Prop :=
  defaultOpcodeMap.code mn = code ∧
  (∀ (m : OpcodeMap) (d a b : Byte), encode m (con d a b) = [m.code mn, d, a, b]) ∧
  (∀ (s : State) (d a b : Fin 8), ∃ t,
    exec (con (regField d) (regField a) (regField b)) s = .next t ∧
      t.status = .executed ∧ t.reg d = f (s.reg a) (s.reg b) ∧
      t.z = decide (f (s.reg a) (s.reg b) = 0) ∧ SameHighFlags s t ∧ t.pc = s.pc + 4) ∧
  (∀ (s : State) (d a b : Byte), 8 ≤ d.toNat ∨ 8 ≤ a.toNat ∨ 8 ≤ b.toNat →
    FaultsWith (con d a b) .invalidRegister s) ∧
  CutAborts mn 4

/-- A conditional jump that is taken when Z is `z` (43_control.md R242, R244): its encoding and default code, its PC and
flags, the error of its own fetch, and that of the next fetch at a bad taken target. -/
def BranchRule (mn : Mnemonic) (code : Byte) (con : Word → Instr) (z : Bool) : Prop :=
  defaultOpcodeMap.code mn = code ∧
  (∀ (m : OpcodeMap) (target : Word), encode m (con target) =
    [m.code mn, byteOf target 0, byteOf target 1, byteOf target 2, byteOf target 3]) ∧
  (∀ (s : State) (target : Word), ∃ t, exec (con target) s = .next t ∧ t.status = .executed ∧
    t.flags = s.flags ∧ t.pc = if s.flags.getLsbD 0 = z then target else s.pc + 5) ∧
  CutAborts mn 5 ∧
  (∀ (s t : State) (target : Word), exec (con target) s = .next t → s.flags.getLsbD 0 = z →
    s.halted = false → s.cfg.opcodes.injective = true → BadTarget s target →
    step t = .fault .decodeOutOfRange)

/-- The breakpoint rule of a run call `run`, followed for a number of turns (40_cycle.md R186, R189, R190): a breakpoint stop
has PC in the set and the machine running; started there the call stops at once with nothing executed; and where the run
has come to such a state it has ended, so that following it further executes nothing more. -/
def BreakpointRule (run : Nat → State → RunResult) : Prop :=
  (∀ (turns : Nat) (s : State), (run turns s).stop = some .stopBreakpoint →
    (run turns s).state.pc ∈ s.bp ∧ (run turns s).state.halted = false) ∧
  (∀ (turns : Nat) (s : State), s.halted = false → 0 < s.cfg.bpStepCap → s.pc ∈ s.bp →
    run turns s = { state := s, steps := 0, stop := some .stopBreakpoint }) ∧
  (∀ (turns more : Nat) (s : State), (run turns s).state.halted = false →
    (run turns s).state.pc ∈ s.bp →
    (run turns s).stop ≠ none ∧ run (turns + more) s = run turns s)

/-- The cap on the run call `run` in breakpoint mode (40_cycle.md R186, R192): followed for BP_STEP_CAP turns or more it has
taken at most that many steps, and has returned or waits in an IN. -/
def BoundedByTheCap (run : Nat → State → RunResult) : Prop :=
  ∀ (turns : Nat) (s : State), s.bp ≠ [] → s.cfg.bpStepCap ≤ turns →
    (run turns s).steps ≤ s.cfg.bpStepCap ∧
      ((run turns s).stop ≠ none ∨ (run turns s).state.status = .waitIn)

end Sys2Proof.Statements

open Sys2Proof.Statements

/-! Encoding. -/

/-- 30_encoding.md R134: decode(encode(instruction)) gives the operands and the documented size again, whatever bytes
follow, under every legal OPCODE_MAP (R120). -/
def Obligations.DecodeOfEncode : Prop :=
  ∀ (m : OpcodeMap) (i : Instr) (rest : List Byte), m.injective = true →
    ∃ D, decode m (encode m i ++ rest) = .ok D ∧ D.instr = some i ∧
      D.size = documentedSize i.mnemonic ∧ D.op = m.code i.mnemonic ∧ D.known = true

/-- Derived from 30_encoding.md R111 and R131: bytes that decode to an instruction begin with that instruction's
encoding, so no byte string has two readings and no bit of an encoding is ignored. -/
def Obligations.EncodeOfDecode : Prop :=
  ∀ (m : OpcodeMap) (bs : List Byte) (D : DecodeRecord) (i : Instr),
    decode m bs = .ok D → D.instr = some i → bs.take D.size = encode m i

/-- 30_encoding.md R110: one opcode byte and a fixed number of operand bytes per opcode; the total size is the table's
and is fixed by the opcode byte. -/
def Obligations.SizesFollowTheTable : Prop :=
  (∀ (m : OpcodeMap) (i : Instr),
    (encode m i).length = documentedSize i.mnemonic ∧
      (encode m i).head? = some (m.code i.mnemonic)) ∧
  (∀ (m : OpcodeMap) (mn : Mnemonic) (bs : List Byte) (D : DecodeRecord), m.injective = true →
    decode m (m.code mn :: bs) = .ok D → D.size = documentedSize mn)

/-- 30_encoding.md R125, 60_exceptions.md R309: an opcode byte outside the image of OPCODE_MAP decodes to the 1-byte
"unimplemented" record, whatever follows; a step that fetches it ends in UNIMPLEMENTED_OPCODE; under the default
map the unknown bytes are 0x00 and 0x14 to 0xFF. -/
def Obligations.UnknownOpcodeIsUnimplemented : Prop :=
  (∀ (m : OpcodeMap) (op : Byte) (rest : List Byte), (∀ mn, m.code mn ≠ op) →
    ∃ D, decode m (op :: rest) = .ok D ∧ D.op = op ∧ D.known = false ∧ D.size = 1 ∧ D.instr = none) ∧
  (∀ s : State, s.halted = false → s.pc.toNat < s.cfg.memSize →
    resolve s.devmap s.pc.toNat = .ram →
    (∀ mn, s.cfg.opcodes.code mn ≠ s.ram.read s.pc.toNat) →
    ∃ t, step s = .next t ∧ t.status = .execFault .unimplementedOpcode ∧ t.halted = true) ∧
  (∀ op : Byte, (∀ mn, defaultOpcodeMap.code mn ≠ op) ↔ op = 0x00 ∨ 0x14 ≤ op.toNat)

/-- Words written out from the encodings of 30_encoding.md R111 and the decoder vectors E8 to E12 of 95_test_vectors.md
decode to the instructions they stand for, under the default map (D1). -/
def Obligations.SpecWordsDecode : Prop :=
  decodeTableWord 48 0x123456780503 = some (.loadi 5 0x12345678) ∧
  decodeTableWord 40 0x1234010204 = some (.load 2 1 0x1234) ∧
  decodeTableWord 32 0x0506070A = some (.xor 7 6 5) ∧
  decodeTableWord 40 0x1234567813 = some (.call 0x12345678) ∧
  decodeTableWord 16 0xFF0C = some (.push 255) ∧
  decodeTableWord 8 0x00 = none

/-! The step. -/

/-- Derived from 40_cycle.md R173 and R178: where the bytes at PC are an instruction's encoding, inside RAM and under no
device window, a running machine's step is exactly that instruction's meaning. The step adds nothing around it:
moving PC is the meaning's own work (R177). -/
def Obligations.StepRunsTheDecodedInstruction : Prop :=
  ∀ (s : State) (i : Instr), s.halted = false → s.cfg.opcodes.injective = true →
    s.pc.toNat + i.size ≤ s.cfg.memSize →
    (∀ k, k < i.size → resolve s.devmap (s.pc.toNat + k) = .ram ∧
      s.ram.read (s.pc.toNat + k) = (encode s.cfg.opcodes i).getD k 0) →
    step s = exec i s

/-- 40_cycle.md R172 (the spec's decision D15): a step of a halted machine changes nothing; the report `AlreadyHalted` is
the model's own field (notes/assumptions/6.md). -/
def Obligations.HaltedStepChangesNothing : Prop :=
  ∀ s : State, s.halted = true → step s = .next { s with status := .alreadyHalted }

/-- 60_exceptions.md R310: a fetch with PC at or past MEM_SIZE, or of a known opcode with too few bytes left, aborts with
DECODE_OUT_OF_RANGE; no instruction itself reports it, so it comes from the step that fetches. -/
def Obligations.FetchPastTheEndAborts : Prop :=
  (∀ s : State, s.halted = false → s.cfg.memSize ≤ s.pc.toNat →
    step s = .fault .decodeOutOfRange) ∧
  (∀ (s : State) (mn : Mnemonic), s.halted = false → s.cfg.opcodes.injective = true →
    resolve s.devmap s.pc.toNat = .ram → s.ram.read s.pc.toNat = s.cfg.opcodes.code mn →
    s.cfg.memSize < s.pc.toNat + documentedSize mn → step s = .fault .decodeOutOfRange) ∧
  (∀ (i : Instr) (s : State), exec i s ≠ .fault .decodeOutOfRange)

/-- Derived from 20_memory.md R84, 60_exceptions.md R305, R316 and 40_cycle.md R180 (the spec's decision D16): an opcode byte
in a device window refuses the step, and so does an operand byte in one, once the opcode is known and the instruction
fits. The CPU's step and every run call that meet a refusal answer with it and leave the state marked refused, and no
clean execution goes on from a marked state. That no host operation takes the mark back is the model's choice
(notes/assumptions/26.md). -/
def Obligations.DeviceFetchIsRefused : Prop :=
  (∀ s : State, s.halted = false → s.pc.toNat < s.cfg.memSize →
    resolve s.devmap s.pc.toNat ≠ .ram → step s = .refused .deviceFetch) ∧
  (∀ (s : State) (mn : Mnemonic) (k : Nat), s.halted = false → s.cfg.opcodes.injective = true →
    resolve s.devmap s.pc.toNat = .ram → s.ram.read s.pc.toNat = s.cfg.opcodes.code mn →
    s.pc.toNat + documentedSize mn ≤ s.cfg.memSize → k < documentedSize mn →
    resolve s.devmap (s.pc.toNat + k) ≠ .ram → step s = .refused .deviceFetch) ∧
  (∀ (s : State) (q : Refusal), step s = .refused q →
    cpuStep s = .returned (.step (.refused q)) { s with refusalMark := true }) ∧
  (∀ (bpMode : Bool) (limit : Option Nat) (turns count : Nat) (s : State) (q : Refusal),
    (runLoop bpMode limit turns count s).stop = some (.abort (.refused q)) →
    (runLoop bpMode limit turns count s).state.refusalMark = true) ∧
  (∀ s : State, s.refusalMark = true → (∀ k t, ¬ runsClean k s t) ∧ ¬ endsCleanly s) ∧
  (∀ (s t : State) (turns : Nat) (op : HostOp), s.refusalMark = true →
    (∀ r, host turns op s = .returned r t → t.refusalMark = true) ∧
      (host turns op s = .pending t → t.refusalMark = true))

/-- Derived from 40_cycle.md R180 and 60_exceptions.md R305: every step ends in exactly one of the outcomes of R180 or
waits in IN; a halted machine only reports AlreadyHalted, and the only refusal is REFUSED_DEVICE_FETCH. -/
def Obligations.EveryStepHasOneOutcome : Prop :=
  ∀ s : State,
    match step s with
    | .next t =>
      (s.halted = true ∧ t.status = .alreadyHalted ∧ t.halted = true) ∨
      (s.halted = false ∧ t.status = .executed) ∨
      (s.halted = false ∧ t.halted = true ∧ ∃ c, t.status = .execFault c) ∨
      (s.halted = false ∧ t.halted = false ∧ s.inp = [] ∧ t.status = .waitIn)
    | .fault _ => s.halted = false
    | .refused r => s.halted = false ∧ r = .deviceFetch

/-- Derived from 60_exceptions.md R302 and R320 (the spec's decisions D11, D13): a step that reports an execution fault
leaves the state before the instruction, halted. The input stream loses only the failed answer IN took
(notes/assumptions/4.md). -/
def Obligations.ExecutionFaultIsPrecise : Prop :=
  ∀ (s t : State) (c : ExecFault), step s = .next t → t.status = .execFault c →
    t.halted = true ∧ t.x = s.x ∧ t.pc = s.pc ∧ t.sp = s.sp ∧ t.flags = s.flags ∧ t.ram = s.ram ∧
      SameSetup s t ∧ t.out = s.out ∧ t.devLog = s.devLog ∧
      (c ≠ .inputFailure → t.inp = s.inp) ∧ (c = .inputFailure → s.inp = .failure :: t.inp)

/-! Data transfer. -/

/-- 41_data_transfer.md R200. The default code is the number of the spec's own map (D1). -/
def Obligations.LoadImmediate : Prop :=
  defaultOpcodeMap.loadi = 0x03 ∧
  (∀ (m : OpcodeMap) (d : Byte) (imm : Word), encode m (.loadi d imm) =
    [m.loadi, d, byteOf imm 0, byteOf imm 1, byteOf imm 2, byteOf imm 3]) ∧
  (∀ (s : State) (d : Fin 8) (imm : Word), ∃ t, exec (.loadi (regField d) imm) s = .next t ∧
    t.status = .executed ∧ t.reg d = imm ∧ t.z = decide (imm = 0) ∧ SameHighFlags s t ∧
    t.pc = s.pc + 6) ∧
  (∀ (s : State) (d : Byte) (imm : Word), 8 ≤ d.toNat →
    FaultsWith (.loadi d imm) .invalidRegister s) ∧
  CutAborts .loadi 6

/-- Derived from 41_data_transfer.md R203 (the spec's decisions D3, D4, D5): LOAD from RAM, for both values of
OFFSET_EXT; the address wraps modulo 2^32 and needs no alignment (R88). -/
def Obligations.LoadReadsRam : Prop :=
  ∀ (s : State) (d b : Fin 8) (off : Half),
    resolve s.devmap (dataAddress s b off).toNat = .ram →
    (dataAddress s b off).toNat + 4 ≤ s.cfg.memSize →
    ∃ t, exec (.load (regField d) (regField b) off) s = .next t ∧ t.status = .executed ∧
      t.reg d = ramWord s (dataAddress s b off).toNat ∧
      t.z = decide (ramWord s (dataAddress s b off).toNat = 0) ∧ t.pc = s.pc + 5

/-- Derived from 41_data_transfer.md R206 (the spec's decisions D3, D4, D5, D8): STORE to RAM, in a canonical memory. -/
def Obligations.StoreWritesRam : Prop :=
  ∀ (s : State) (b r : Fin 8) (off : Half), s.ram.wf = true →
    resolve s.devmap (dataAddress s b off).toNat = .ram →
    (dataAddress s b off).toNat + 4 ≤ s.cfg.memSize →
    ∃ t, exec (.store (regField b) (regField r) off) s = .next t ∧ t.status = .executed ∧
      HoldsWord t (dataAddress s b off).toNat (s.reg r) ∧ t.flags = s.flags ∧ t.pc = s.pc + 5

/-- Derived from 20_memory.md R76 and R77 (the spec's decisions D17, D42): LOAD and STORE at an address in a device window
make one 32-bit access to that device at the device-local offset, and a device failure is DEVICE_FAULT. Holds for
every answer of the oracle (notes/assumptions/5.md). -/
def Obligations.LoadAndStoreThroughADevice : Prop :=
  (∀ (s : State) (d b : Fin 8) (off : Half) (dev o : Nat),
    resolve s.devmap (dataAddress s b off).toNat = .device dev o →
    match Config.deviceRead s.devLog dev o with
    | .value v => ∃ t, exec (.load (regField d) (regField b) off) s = .next t ∧
        t.status = .executed ∧ t.reg d = v ∧ t.z = decide (v = 0) ∧ t.pc = s.pc + 5 ∧
        t.devLog = s.devLog ++ [.read dev o v]
    | .failure => exec (.load (regField d) (regField b) off) s = .fault .deviceFault) ∧
  (∀ (s : State) (b r : Fin 8) (off : Half) (dev o : Nat),
    resolve s.devmap (dataAddress s b off).toNat = .device dev o →
    match Config.deviceAccepts s.devLog dev o (s.reg r) with
    | true => ∃ t, exec (.store (regField b) (regField r) off) s = .next t ∧
        t.status = .executed ∧ SameBytes s t ∧ t.flags = s.flags ∧ t.pc = s.pc + 5 ∧
        t.devLog = s.devLog ++ [.write dev o (s.reg r)]
    | false => exec (.store (regField b) (regField r) off) s = .fault .deviceFault)

/-! Arithmetic, logic and compare. -/

/-- 42_alu.md R220, R222, R224, R226, R228. The default codes are the numbers of the spec's own map (D1). -/
def Obligations.AluInstructions : Prop :=
  AluRule .add 0x06 .add (fun u v => u + v) ∧
  AluRule .sub 0x07 .sub (fun u v => u - v) ∧
  AluRule .and 0x08 .and (fun u v => u &&& v) ∧
  AluRule .or 0x09 .or (fun u v => u ||| v) ∧
  AluRule .xor 0x0A .xor (fun u v => u ^^^ v)

/-- 42_alu.md R230. The default code is the number of the spec's own map (D1). -/
def Obligations.CompareInstruction : Prop :=
  defaultOpcodeMap.cmp = 0x0B ∧
  (∀ (m : OpcodeMap) (a b : Byte), encode m (.cmp a b) = [m.cmp, a, b]) ∧
  (∀ (s : State) (a b : Fin 8), ∃ t, exec (.cmp (regField a) (regField b)) s = .next t ∧
    t.status = .executed ∧ t.z = decide (s.reg a = s.reg b) ∧ SameHighFlags s t ∧ SameRegs s t ∧
    t.pc = s.pc + 3) ∧
  (∀ (s : State) (a b : Byte), 8 ≤ a.toNat ∨ 8 ≤ b.toNat →
    FaultsWith (.cmp a b) .invalidRegister s) ∧
  CutAborts .cmp 3

/-! Control. -/

/-- 43_control.md R240: the target is not checked by the jump; a bad one is the next step's error. The default code is the
number of the spec's own map (D1). -/
def Obligations.JumpInstruction : Prop :=
  defaultOpcodeMap.jmp = 0x10 ∧
  (∀ (m : OpcodeMap) (target : Word), encode m (.jmp target) =
    [m.jmp, byteOf target 0, byteOf target 1, byteOf target 2, byteOf target 3]) ∧
  (∀ (s : State) (target : Word), ∃ t, exec (.jmp target) s = .next t ∧ t.status = .executed ∧
    t.pc = target ∧ t.flags = s.flags) ∧
  CutAborts .jmp 5 ∧
  (∀ (s t : State) (target : Word), exec (.jmp target) s = .next t → s.halted = false →
    s.cfg.opcodes.injective = true → BadTarget s target → step t = .fault .decodeOutOfRange)

/-- 43_control.md R242 and R244. The default codes are the numbers of the spec's own map (D1). -/
def Obligations.ConditionalJumps : Prop :=
  BranchRule .jz 0x11 .jz true ∧ BranchRule .jnz 0x12 .jnz false

/-! Stack and subroutines. -/

/-- Derived from 44_stack.md R260 (the spec's decision D13): PUSH into RAM, in a canonical memory. -/
def Obligations.PushWritesBelowSp : Prop :=
  ∀ (s : State) (r : Fin 8), s.ram.wf = true → 4 ≤ s.sp.toNat → s.sp.toNat ≤ s.cfg.memSize →
    resolve s.devmap (s.sp.toNat - 4) = .ram →
    ∃ t, exec (.push (regField r)) s = .next t ∧ t.status = .executed ∧
      HoldsWord t (s.sp.toNat - 4) (s.reg r) ∧ t.sp.toNat = s.sp.toNat - 4 ∧ t.flags = s.flags ∧
      t.pc = s.pc + 2

/-- Derived from 44_stack.md R262 (the spec's decisions D5, D13): POP from RAM. The SP it leaves is exact because a legal
MEM_SIZE is at most 2^32 - 4 (D6). -/
def Obligations.PopReadsAtSp : Prop :=
  ∀ (s : State) (d : Fin 8), s.sp.toNat + 4 ≤ s.cfg.memSize → s.cfg.memSize ≤ 2 ^ 32 - 4 →
    resolve s.devmap s.sp.toNat = .ram →
    ∃ t, exec (.pop (regField d)) s = .next t ∧ t.status = .executed ∧
      t.reg d = ramWord s s.sp.toNat ∧ t.sp.toNat = s.sp.toNat + 4 ∧
      t.z = decide (ramWord s s.sp.toNat = 0) ∧ t.pc = s.pc + 2

/-- Derived from 44_stack.md R264 (the spec's decision D13): CALL pushes the address of the byte after it and jumps. -/
def Obligations.CallPushesReturnAddress : Prop :=
  ∀ (s : State) (target : Word), s.ram.wf = true → 4 ≤ s.sp.toNat → s.sp.toNat ≤ s.cfg.memSize →
    resolve s.devmap (s.sp.toNat - 4) = .ram →
    ∃ t, exec (.call target) s = .next t ∧ t.status = .executed ∧
      HoldsWord t (s.sp.toNat - 4) (s.pc + 5) ∧ t.sp.toNat = s.sp.toNat - 4 ∧ t.flags = s.flags ∧
      t.pc = target

/-- Derived from 44_stack.md R266 (the spec's decisions D8, D13): RET takes any word at SP as its target and writes no
flag. -/
def Obligations.RetPopsTarget : Prop :=
  ∀ s : State, s.sp.toNat + 4 ≤ s.cfg.memSize → s.cfg.memSize ≤ 2 ^ 32 - 4 →
    resolve s.devmap s.sp.toNat = .ram →
    ∃ t, exec .ret s = .next t ∧ t.status = .executed ∧ t.pc = ramWord s s.sp.toNat ∧
      t.sp.toNat = s.sp.toNat + 4 ∧ t.flags = s.flags

/-- Derived from 20_memory.md R71, R76 and R77 (the spec's decisions D17, D42): the stack's own accesses go through the
bus, so a stack word in a device window is one device access. Holds for every answer of the oracle. -/
def Obligations.StackThroughADevice : Prop :=
  (∀ (s : State) (r : Fin 8) (dev o : Nat), 4 ≤ s.sp.toNat →
    resolve s.devmap (s.sp.toNat - 4) = .device dev o →
    match Config.deviceAccepts s.devLog dev o (s.reg r) with
    | true => ∃ t, exec (.push (regField r)) s = .next t ∧ t.status = .executed ∧ SameBytes s t ∧
        t.sp.toNat = s.sp.toNat - 4 ∧ t.devLog = s.devLog ++ [.write dev o (s.reg r)] ∧
        t.pc = s.pc + 2
    | false => exec (.push (regField r)) s = .fault .deviceFault) ∧
  (∀ (s : State) (target : Word) (dev o : Nat), 4 ≤ s.sp.toNat →
    resolve s.devmap (s.sp.toNat - 4) = .device dev o →
    match Config.deviceAccepts s.devLog dev o (s.pc + 5) with
    | true => ∃ t, exec (.call target) s = .next t ∧ t.status = .executed ∧ SameBytes s t ∧
        t.sp.toNat = s.sp.toNat - 4 ∧ t.devLog = s.devLog ++ [.write dev o (s.pc + 5)] ∧
        t.pc = target
    | false => exec (.call target) s = .fault .deviceFault) ∧
  (∀ (s : State) (d : Fin 8) (dev o : Nat), s.sp.toNat + 4 ≤ s.cfg.memSize →
    s.cfg.memSize ≤ 2 ^ 32 - 4 → resolve s.devmap s.sp.toNat = .device dev o →
    match Config.deviceRead s.devLog dev o with
    | .value v => ∃ t, exec (.pop (regField d)) s = .next t ∧ t.status = .executed ∧ t.reg d = v ∧
        t.z = decide (v = 0) ∧ t.sp.toNat = s.sp.toNat + 4 ∧
        t.devLog = s.devLog ++ [.read dev o v] ∧ t.pc = s.pc + 2
    | .failure => exec (.pop (regField d)) s = .fault .deviceFault) ∧
  (∀ (s : State) (dev o : Nat), s.sp.toNat + 4 ≤ s.cfg.memSize → s.cfg.memSize ≤ 2 ^ 32 - 4 →
    resolve s.devmap s.sp.toNat = .device dev o →
    match Config.deviceRead s.devLog dev o with
    | .value v => ∃ t, exec .ret s = .next t ∧ t.status = .executed ∧ t.pc = v ∧
        t.sp.toNat = s.sp.toNat + 4 ∧ t.devLog = s.devLog ++ [.read dev o v]
    | .failure => exec .ret s = .fault .deviceFault)

/-- 60_exceptions.md R308: PUSH or CALL executed with SP < 4. -/
def Obligations.StackOverflowFaults : Prop :=
  ∀ s : State, s.sp.toNat < 4 →
    (∀ r : Fin 8, FaultsWith (.push (regField r)) .stackOverflow s) ∧
      ∀ target : Word, FaultsWith (.call target) .stackOverflow s

/-- 60_exceptions.md R313: POP or RET executed with SP + 4 > MEM_SIZE, on unbounded integers. -/
def Obligations.StackUnderflowFaults : Prop :=
  ∀ s : State, s.cfg.memSize < s.sp.toNat + 4 →
    (∀ d : Fin 8, FaultsWith (.pop (regField d)) .stackUnderflow s) ∧
      FaultsWith .ret .stackUnderflow s

/-- 60_exceptions.md R311: a data access of LOAD, STORE, PUSH or CALL that resolves to RAM with address + 4 > MEM_SIZE;
POP and RET cannot raise it. -/
def Obligations.DataAccessPastTheEndAborts : Prop :=
  (∀ (s : State) (r b : Fin 8) (off : Half),
    resolve s.devmap (dataAddress s b off).toNat = .ram →
    s.cfg.memSize < (dataAddress s b off).toNat + 4 →
    exec (.load (regField r) (regField b) off) s = .fault .memOutOfRange ∧
      exec (.store (regField b) (regField r) off) s = .fault .memOutOfRange) ∧
  (∀ s : State, 4 ≤ s.sp.toNat → resolve s.devmap (s.sp.toNat - 4) = .ram →
    s.cfg.memSize < s.sp.toNat - 4 + 4 →
    (∀ r : Fin 8, exec (.push (regField r)) s = .fault .memOutOfRange) ∧
      ∀ target : Word, exec (.call target) s = .fault .memOutOfRange) ∧
  (∀ (s : State) (d : Byte),
    exec (.pop d) s ≠ .fault .memOutOfRange ∧ exec .ret s ≠ .fault .memOutOfRange)

/-- 60_exceptions.md R307: an instruction with a register field over 7 ends in INVALID_REGISTER, whatever the state, and
no other instruction does, in particular none without a register field. -/
def Obligations.InvalidRegisterFaults : Prop :=
  ∀ (i : Instr) (s : State),
    (namesBadRegister i → FaultsWith i .invalidRegister s) ∧
      (¬ namesBadRegister i → ¬ FaultsWith i .invalidRegister s)

/-! Host I/O and halt. -/

/-- Derived from 45_io_halt.md R280 (the spec's decision D24): OUT appends the register's value to the output stream and
always completes. -/
def Obligations.OutAppendsValue : Prop :=
  ∀ (s : State) (r : Fin 8), ∃ t, exec (.out (regField r)) s = .next t ∧ t.status = .executed ∧
    t.out = s.out ++ [s.reg r] ∧ t.flags = s.flags ∧ t.pc = s.pc + 2

/-- Derived from 45_io_halt.md R283 and 60_exceptions.md R314 (the spec's decisions D23, D25): IN takes the next answer of
the input stream. The stream as a list in the state, and a waiting step as a step that changes only the reported
phase, are the model's (notes/assumptions/4.md). -/
def Obligations.InTakesTheNextAnswer : Prop :=
  (∀ (s : State) (d : Fin 8) (v : Word) (rest : List InputAnswer), s.inp = .value v :: rest →
    ∃ t, exec (.inp (regField d)) s = .next t ∧ t.status = .executed ∧ t.reg d = v ∧
      t.z = decide (v = 0) ∧ t.inp = rest ∧ t.pc = s.pc + 2) ∧
  (∀ (s : State) (d : Fin 8) (rest : List InputAnswer), s.inp = .failure :: rest →
    FaultsWith (.inp (regField d)) .inputFailure s) ∧
  (∀ (s : State) (d : Fin 8), s.inp = [] →
    exec (.inp (regField d)) s = .next { s with status := .waitIn })

/-- Derived from 45_io_halt.md R286 (the spec's decision D10): HALT halts; PC moves only if HALT_ADVANCES_PC. -/
def Obligations.HaltStopsTheMachine : Prop :=
  ∀ s : State, ∃ t, exec .halt s = .next t ∧ t.status = .executed ∧ t.halted = true ∧
    t.pc = (if s.cfg.haltAdvancesPc = true then s.pc + 1 else s.pc) ∧ t.flags = s.flags

/-! Frames. -/

/-- Derived from 10_state.md R32, R40 and the pseudocode of R200 and R220 to R228 (bits 31:1 of FLAGS by D7): what LOADI,
ADD, SUB, AND, OR and XOR leave unchanged, for every value of their fields. -/
def Obligations.RegisterResultFrame : Prop :=
  ∀ (s t : State) (i : Instr) (d : Byte),
    ((∃ imm, i = .loadi d imm) ∨
      ∃ a b, i = .add d a b ∨ i = .sub d a b ∨ i = .and d a b ∨ i = .or d a b ∨ i = .xor d a b) →
    exec i s = .next t →
    SameRegsBut d s t ∧ SameHighFlags s t ∧ t.sp = s.sp ∧ SameBytes s t ∧ t.inp = s.inp ∧
      t.out = s.out ∧ t.devLog = s.devLog ∧ SameSetup s t ∧ SameRunState s t

/-- Derived from 10_state.md R32, R42 and R230, R240 to R244, R280, R286: what CMP, JMP, JZ, JNZ, OUT and HALT leave
unchanged. CMP writes Z only; OUT adds to the output stream; HALT changes the run state. -/
def Obligations.NoRegisterResultFrame : Prop :=
  ∀ (s t : State) (i : Instr),
    (i = .halt ∨ (∃ a b, i = .cmp a b) ∨ (∃ r, i = .out r) ∨
      ∃ target, i = .jmp target ∨ i = .jz target ∨ i = .jnz target) →
    exec i s = .next t →
    SameRegs s t ∧ SameHighFlags s t ∧ (i.mnemonic ≠ .cmp → t.flags = s.flags) ∧ t.sp = s.sp ∧
      SameBytes s t ∧ t.inp = s.inp ∧ (i.mnemonic ≠ .out → t.out = s.out) ∧
      t.devLog = s.devLog ∧ SameSetup s t ∧ (i ≠ .halt → SameRunState s t)

/-- Derived from 10_state.md R32, R39 and R203, R262, R266, R283: what LOAD, POP, RET and IN leave unchanged. POP and RET
also update SP; IN also takes from the input stream; a device access is recorded only where the address lies in a
device window. -/
def Obligations.ReadingFrame : Prop :=
  (∀ (s t : State) (d b : Byte) (off : Half), exec (.load d b off) s = .next t →
    SameRegsBut d s t ∧ SameHighFlags s t ∧ t.sp = s.sp ∧ SameBytes s t ∧ t.inp = s.inp ∧
      t.out = s.out ∧ SameSetup s t ∧ SameRunState s t ∧
      ∀ r : Fin 8, b = regField r → resolve s.devmap (dataAddress s r off).toNat = .ram →
        t.devLog = s.devLog) ∧
  (∀ (s t : State) (d : Byte), exec (.pop d) s = .next t →
    SameRegsBut d s t ∧ SameHighFlags s t ∧ SameBytes s t ∧ t.inp = s.inp ∧ t.out = s.out ∧
      SameSetup s t ∧ SameRunState s t ∧
      (resolve s.devmap s.sp.toNat = .ram → t.devLog = s.devLog)) ∧
  (∀ s t : State, exec .ret s = .next t →
    SameRegs s t ∧ t.flags = s.flags ∧ SameBytes s t ∧ t.inp = s.inp ∧ t.out = s.out ∧
      SameSetup s t ∧ SameRunState s t ∧
      (resolve s.devmap s.sp.toNat = .ram → t.devLog = s.devLog)) ∧
  (∀ (s t : State) (d : Byte), exec (.inp d) s = .next t →
    SameRegsBut d s t ∧ SameHighFlags s t ∧ t.sp = s.sp ∧ SameBytes s t ∧ t.out = s.out ∧
      t.devLog = s.devLog ∧ SameSetup s t ∧ SameRunState s t ∧
      (t.inp = s.inp ∨ ∃ a, s.inp = a :: t.inp))

/-- Derived from 10_state.md R32, R39, 20_memory.md R79 and R206, R260, R264: what STORE, PUSH and CALL leave unchanged.
The bytes stored are the four from the address the meaning computes; a store into a device window changes no byte
of RAM. PUSH and CALL also update SP. -/
def Obligations.StoringFrame : Prop :=
  (∀ (s t : State) (b r : Fin 8) (off : Half),
    exec (.store (regField b) (regField r) off) s = .next t →
    SameRegs s t ∧ t.flags = s.flags ∧ t.sp = s.sp ∧ t.inp = s.inp ∧ t.out = s.out ∧
      SameSetup s t ∧ SameRunState s t ∧ SameBytesOutside (dataAddress s b off).toNat s t ∧
      (resolve s.devmap (dataAddress s b off).toNat = .ram → t.devLog = s.devLog) ∧
      (resolve s.devmap (dataAddress s b off).toNat ≠ .ram → SameBytes s t)) ∧
  (∀ (s t : State) (i : Instr), ((∃ r, i = .push r) ∨ ∃ target, i = .call target) →
    exec i s = .next t →
    SameRegs s t ∧ t.flags = s.flags ∧ t.inp = s.inp ∧ t.out = s.out ∧ SameSetup s t ∧
      SameRunState s t ∧ SameBytesOutside (s.sp.toNat - 4) s t ∧
      (resolve s.devmap (s.sp.toNat - 4) = .ram → t.devLog = s.devLog) ∧
      (resolve s.devmap (s.sp.toNat - 4) ≠ .ram → SameBytes s t)) ∧
  (∀ (s t : State) (b r : Byte) (off : Half), 8 ≤ b.toNat ∨ 8 ≤ r.toNat →
    exec (.store b r off) s = .next t → SameRegs s t ∧ SameBytes s t ∧ t.flags = s.flags ∧
      t.sp = s.sp ∧ t.pc = s.pc)

/-! Memory and the bus. -/

/-- 20_memory.md R75: a 32-bit value lies in RAM with bits 7:0 at `addr` and bits 31:24 at `addr + 3`, and a 32-bit read
takes the four bytes back. -/
def Obligations.WordsAreLittleEndian : Prop :=
  ∀ (s : State) (addr v : Word), s.ram.wf = true → resolve s.devmap addr.toNat = .ram →
    addr.toNat + 4 ≤ s.cfg.memSize →
    ∃ t, s.memWrite addr v = .ok t ∧ HoldsWord t addr.toNat v ∧ t.memRead addr = .ok (v, t)

/-- 20_memory.md R72: the access goes to the device whose window contains its start address, with the offset from the
window's base, and to RAM when no window contains it. -/
def Obligations.BusRoutesByStartAddress : Prop :=
  ∀ (devmap : List DeviceMapping) (a : Nat), devmapOk devmap = true →
    (∀ m ∈ devmap, m.base.toNat ≤ a → a < m.base.toNat + m.size →
      resolve devmap a = .device m.dev (a - m.base.toNat)) ∧
    ((∀ m ∈ devmap, ¬ (m.base.toNat ≤ a ∧ a < m.base.toNat + m.size)) → resolve devmap a = .ram)

/-- Derived from 44_stack.md R260 and R262: a POP after a PUSH takes the pushed value back and restores SP, for every
stack word in RAM. -/
def Obligations.PopAfterPushRestores : Prop :=
  ∀ (s t : State) (r d : Fin 8), s.inv = true → s.sp.toNat ≤ s.cfg.memSize →
    resolve s.devmap (s.sp.toNat - 4) = .ram → exec (.push (regField r)) s = .next t →
    t.status = .executed →
    ∃ u, exec (.pop (regField d)) t = .next u ∧ u.status = .executed ∧ u.reg d = s.reg r ∧
      u.sp = s.sp

/-- Derived from 44_stack.md R264 and R266: a RET right after a CALL comes back to the byte after the CALL with SP
restored, for every stack word in RAM. -/
def Obligations.RetAfterCallReturns : Prop :=
  ∀ (s t : State) (target : Word), s.inv = true → s.sp.toNat ≤ s.cfg.memSize →
    resolve s.devmap (s.sp.toNat - 4) = .ram → exec (.call target) s = .next t →
    t.status = .executed →
    ∃ u, exec .ret t = .next u ∧ u.status = .executed ∧ u.pc = s.pc + 5 ∧ u.sp = s.sp

/-! Whole-machine rules. -/

/-- Derived from 10_state.md R47, R50, R51 and 00_scope.md R9: the invariant (Safety.lean) is kept by every step. -/
def Obligations.StepKeepsInvariant : Prop :=
  ∀ s t : State, s.inv = true → step s = .next t → t.inv = true

/-- Derived from 10_state.md R55 (INIT_RAM, MEM_SIZE and BP_STEP_CAP at the values of notes/assumptions/1.md and 2.md). -/
def Obligations.ResetMeetsInvariant : Prop :=
  State.reset.inv = true

/-- Derived from 10_state.md R60 and R61: every state a machine of a legal configuration comes to, by steps, host
operations and input, from construction with any INIT_RAM, meets the invariant and has the same parameters. -/
def Obligations.ReachableStatesMeetInvariant : Prop :=
  ∀ (cfg : Config) (s : State), configOk cfg = true → Reachable cfg s → s.inv = true ∧ s.cfg = cfg

/-- Derived from 10_state.md R50 and R51, and from 40_cycle.md R180, where a refusal alone marks the state: no step that
answers a next state changes the parameters, the device map, the breakpoints or the refusal mark. -/
def Obligations.StepKeepsTheSetup : Prop :=
  ∀ s t : State, step s = .next t → SameSetup s t

/-- Derived from 10_state.md R40 and R42 (the spec's decisions D7, D8): STORE, PUSH, JMP, JZ, JNZ, CALL, RET, OUT and HALT
leave FLAGS unchanged, and no step at all changes bits 31:1. -/
def Obligations.OnlyZIsEverWritten : Prop :=
  (∀ (s t : State) (i : Instr),
    i.mnemonic ∈ [Mnemonic.store, .push, .jmp, .jz, .jnz, .call, .ret, .out, .halt] →
    exec i s = .next t → t.flags = s.flags) ∧
  (∀ s t : State, step s = .next t → SameHighFlags s t)

/-- Derived from 10_state.md R44 (the spec's decisions D15, D30): halted is terminal. No step leaves it, and of the host's
operations only powerOn, a program load and a snapshot restore do. -/
def Obligations.HaltedIsTerminal : Prop :=
  (∀ s t : State, s.halted = true → step s = .next t → t.halted = true) ∧
  (∀ (s t : State) (turns : Nat) (op : HostOp) (r : Reply), s.halted = true →
    host turns op s = .returned r t → t.halted = false →
    op = .powerOn ∨ (∃ bytes, op = .loadProgramBytes bytes) ∨ ∃ bytes, op = .loadSnapshot bytes)

/-! Reset and program loading. -/

/-- 10_state.md R33: after reset every register is 0, at construction, by powerOn and by a program load. -/
def Obligations.RegistersAreZeroAfterReset : Prop :=
  ∀ i : Fin 8, State.reset.reg i = 0 ∧
    (∀ (cfg : Config) (initRam : List Byte), (construct cfg initRam).reg i = 0) ∧
    (∀ s : State, (powerOn s).reg i = 0) ∧
    (∀ (s t : State) (bytes : List Byte), loadProgramBytes bytes s = .ok t → t.reg i = 0)

/-- Derived from 70_reset_and_hazards.md R350 (the spec's decision D22 for PC, FLAGS and halted): powerOn resets the CPU
and changes neither RAM, DEVMAP nor BP; construction leaves the same CPU state (R351). -/
def Obligations.PowerOnResetsTheCpu : Prop :=
  (∀ s : State, configOk s.cfg = true →
    (powerOn s).pc = 0 ∧ (powerOn s).sp.toNat = s.cfg.memSize - 4 ∧ (powerOn s).flags = 0 ∧
      (powerOn s).halted = false ∧ (powerOn s).ram = s.ram ∧ SameMaps s (powerOn s)) ∧
  (∀ (cfg : Config) (initRam : List Byte),
    powerOn (construct cfg initRam) = construct cfg initRam) ∧
  construct defaultConfig [] = State.reset

/-- Derived from 70_reset_and_hazards.md R356 and R357 (the spec's decisions D31, and D22 for FLAGS): a successful load
leaves the payload and zeros in RAM and the CPU reset (registers and FLAGS 0, SP at MEM_SIZE - 4, running) with PC at
the entry, and the CPU and RAM it leaves do not depend on the state before it. -/
def Obligations.ProgramLoadDefinesTheState : Prop :=
  ∀ (bytes payload : List Byte) (entry : Word) (s t : State),
    parseProgram s.cfg.verify bytes = .ok (payload, entry) →
    loadProgramBytes bytes s = .ok t →
    t.pc = entry ∧ t.halted = false ∧ t.flags = 0 ∧ (∀ r : Fin 8, t.reg r = 0) ∧
      (configOk s.cfg = true → t.sp.toNat = s.cfg.memSize - 4) ∧
      t.sp = (powerOn s).sp ∧
      (∀ a, t.ram.read a = payload.getD a 0) ∧ SameMaps s t ∧
      ∀ s' : State, s'.cfg = s.cfg → ∃ t', loadProgramBytes bytes s' = .ok t' ∧ t'.x = t.x ∧
        t'.pc = t.pc ∧ t'.sp = t.sp ∧ t'.flags = t.flags ∧ t'.halted = t.halted ∧ t'.ram = t.ram

/-- Derived from 70_reset_and_hazards.md R365, R364 and R360: with verification, an emitted image always loads if it fits,
and an image with one payload byte changed after emission fails with the checksum mismatch. It rests on the
Adler-32 of the spec's general-knowledge passage K3 (PRESUMED, notes/assumptions/23.md), and says nothing of payloads
of 2^32 bytes or more, for which what is emitted is the model's choice (notes/assumptions/25.md). -/
def Obligations.ChecksumProperty : Prop :=
  ∀ (s : State) (entry : Word) (payload : List Byte), s.cfg.verify = true →
    payload.length < 2 ^ 32 →
    (payload.length ≤ s.cfg.memSize → ∃ t, loadProgramBytes (emitHeader entry payload) s = .ok t) ∧
    (∀ (k : Nat) (b : Byte), k < payload.length → b ≠ payload.getD k 0 →
      loadProgramBytes ((emitHeader entry payload).set (20 + k) b) s =
        .error .headerChecksumMismatch)

/-- Derived from 70_reset_and_hazards.md R363, with the 12-byte v1 layout of R360 and the parse of R361: a v1 header is
accepted whatever VERIFY says, and gives its entry and payload. The bytes of the magic are the spec's general-knowledge
passage K1 (PRESUMED, notes/assumptions/23.md). -/
def Obligations.VersionOneNeedsNoChecksum : Prop :=
  ∀ (verify : Bool) (entry : Word) (payload : List Byte),
    parseProgram verify ([0x56, 0x4D, 0x42, 0x31, 1, 0, 0, 0] ++
      [byteOf entry 0, byteOf entry 1, byteOf entry 2, byteOf entry 3] ++ payload) =
        .ok (payload, entry)

/-! Snapshots. -/

/-- Derived from 70_reset_and_hazards.md R373 and R374 (the spec's decision D30): restoring a saved machine into any
instance of the same configuration brings back PC, SP, FLAGS, every register and all of RAM, with halted false and
the instance's own DEVMAP and BP kept. -/
def Obligations.SnapshotRoundTrip : Prop :=
  ∀ s s' : State, s.inv = true → s'.cfg = s.cfg →
    ∃ t, loadSnapshot (saveSnapshot s) s' = .ok t ∧ t.pc = s.pc ∧ t.sp = s.sp ∧
      t.flags = s.flags ∧ t.x = s.x ∧ t.ram = s.ram ∧ t.halted = false ∧ SameMaps s' t

/-- Derived from 70_reset_and_hazards.md R370 (the spec's decision D29): a snapshot has 48 + 2W + MEM_SIZE bytes and begins
with "SNP1", PC, SP and FLAGS; saving is defined for every state. The bytes of the magic are the spec's
general-knowledge passage K2 (PRESUMED, notes/assumptions/23.md). -/
def Obligations.SnapshotLayout : Prop :=
  ∀ s : State, (saveSnapshot s).length = 48 + 2 * s.cfg.snapWordBytes + s.cfg.memSize ∧
    (saveSnapshot s).take 16 =
      [0x53, 0x4E, 0x50, 0x31, byteOf s.pc 0, byteOf s.pc 1, byteOf s.pc 2, byteOf s.pc 3,
        byteOf s.sp 0, byteOf s.sp 1, byteOf s.sp 2, byteOf s.sp 3,
        byteOf s.flags 0, byteOf s.flags 1, byteOf s.flags 2, byteOf s.flags 3]

/-- Derived from 70_reset_and_hazards.md R372 (the spec's decision D30): a restore succeeds exactly on a blob of the right
length with the exact magic, register count and memory size. The bytes of the magic are the spec's general-knowledge
passage K2 (PRESUMED, notes/assumptions/23.md). -/
def Obligations.SnapshotIsChecked : Prop :=
  ∀ (bs : List Byte) (s : State),
    (∃ t, loadSnapshot bs s = .ok t) ↔
      bs.length = 48 + 2 * s.cfg.snapWordBytes + s.cfg.memSize ∧
      bs.take 4 = [0x53, 0x4E, 0x50, 0x31] ∧
      natAt bs 16 s.cfg.snapWordBytes = 8 ∧
      natAt bs (48 + s.cfg.snapWordBytes) s.cfg.snapWordBytes = s.cfg.memSize

/-! The run controller and the host. -/

/-- Derived from 40_cycle.md R182 and R186 to R190 (the spec's decisions D26, D27): in `runUntilHalt` and in `runSteps n`,
however far the call is followed, a breakpoint stop has PC in the breakpoint set and is not halted, a run started with
PC in the set stops at once with nothing executed, and no step is taken from a running state with PC in the set. How
far a call is followed is the model's (notes/assumptions/14.md). -/
def Obligations.BreakpointStopsBeforeExecuting : Prop :=
  BreakpointRule runUntilHalt ∧ ∀ n : Nat, BreakpointRule (runSteps n)

/-- Derived from 40_cycle.md R182, R186 and R192 (the spec's decision D26): a breakpoint-mode run, made by `runUntilHalt` or
by `runSteps n` (also by `runSteps 0`), returns within BP_STEP_CAP steps, unless an IN waits for the host; and
`runSteps n` with a positive n never takes more than n steps. How far a call is followed is the model's
(notes/assumptions/14.md). -/
def Obligations.BreakpointRunIsBounded : Prop :=
  BoundedByTheCap runUntilHalt ∧ (∀ n : Nat, BoundedByTheCap (runSteps n)) ∧
    ∀ (n turns : Nat) (s : State), 0 < n → (runSteps n turns s).steps ≤ n

/-- Derived from 40_cycle.md R181 and R187 (the spec's decisions D28, D41): the CPU's own run of a positive number of steps
returns within them, unless an IN waits, and never stops for a breakpoint or the cap. How far a call is followed is
the model's (notes/assumptions/14.md). -/
def Obligations.CpuRunIsBounded : Prop :=
  ∀ (maxSteps turns : Nat) (s : State), 0 < maxSteps → maxSteps ≤ turns →
    (cpuRun maxSteps turns s).steps ≤ maxSteps ∧
      ((cpuRun maxSteps turns s).stop ≠ none ∨ (cpuRun maxSteps turns s).state.status = .waitIn) ∧
      (cpuRun maxSteps turns s).stop ≠ some .stopBreakpoint ∧
      (cpuRun maxSteps turns s).stop ≠ some .stopCap

/-- Derived from 20_memory.md R85 (the spec's decision D18): the host's raw accesses are bounds-checked, past the devices,
and a write changes exactly the bytes written. -/
def Obligations.HostMemoryAccess : Prop :=
  (∀ (s : State) (addr len : Nat), s.cfg.memSize < addr + len →
    hostMemRead addr len s = .error .memOutOfRange) ∧
  (∀ (s : State) (addr len : Nat), addr + len ≤ s.cfg.memSize →
    ∃ bs, hostMemRead addr len s = .ok bs ∧ bs.length = len ∧
      ∀ k, k < len → bs.getD k 0 = s.ram.read (addr + k)) ∧
  (∀ (s : State) (addr : Nat) (bs : List Byte), s.cfg.memSize < addr + bs.length →
    hostMemWrite addr bs s = .error .memOutOfRange) ∧
  (∀ (s : State) (addr : Nat) (bs : List Byte), s.ram.wf = true →
    addr + bs.length ≤ s.cfg.memSize →
    ∃ t, hostMemWrite addr bs s = .ok t ∧ hostMemRead addr bs.length t = .ok bs ∧
      (∀ a, a < addr ∨ addr + bs.length ≤ a → t.ram.read a = s.ram.read a) ∧
      t = { s with ram := t.ram })

/-- Derived from 20_memory.md R80 (the spec's decision D20; the order of the two errors is notes/assumptions/11.md): a
mapping that overlaps is rejected, one that is empty or runs past 2^32 is rejected, and any other is appended. -/
def Obligations.DeviceRegistration : Prop :=
  ∀ (s : State) (n : DeviceMapping),
    ((∃ m ∈ s.devmap, n.base.toNat < m.base.toNat + m.size ∧ m.base.toNat < n.base.toNat + n.size) →
      registerDevice n s = .error .deviceOverlap) ∧
    ((∀ m ∈ s.devmap,
        ¬ (n.base.toNat < m.base.toNat + m.size ∧ m.base.toNat < n.base.toNat + n.size)) →
      (n.size = 0 ∨ 2 ^ 32 < n.base.toNat + n.size → registerDevice n s = .error .deviceBadRange) ∧
      (n.size ≠ 0 → n.base.toNat + n.size ≤ 2 ^ 32 →
        registerDevice n s = .ok { s with devmap := s.devmap ++ [n] }))

/-- Derived from 10_state.md R65 (the spec's decision D39): the host's register accessors. -/
def Obligations.RegisterAccessors : Prop :=
  (∀ (s : State) (i : Fin 8) (v : Word), getReg i.val s = .ok (s.reg i) ∧
    ∃ t, setReg i.val v s = .ok t ∧ t.reg i = v ∧ SameRegsBut (regField i) s t ∧
      t = { s with x := t.x }) ∧
  (∀ (s : State) (i : Nat) (v : Word), 8 ≤ i →
    getReg i s = .error .badRegisterIndex ∧ setReg i v s = .error .badRegisterIndex)

/-! The assembler and the disassembler. -/

/-- Derived from 30_encoding.md R133, R135, R144 and R156 (the spec's decisions D33, D34): the disassembly of a well-formed
instruction's bytes, assembled again, gives those bytes. -/
def Obligations.AssembleOfDisassembly : Prop :=
  ∀ (m : OpcodeMap) (i : Instr) (D : DecodeRecord), m.injective = true → i.wellFormed = true →
    decode m (encode m i) = .ok D → assemble m (recordText D) = .ok (encode m i, [])
end

