-- ==== Sys2Proof/Laws/Decode.lean ====
section
/-! SUPPORT. Byte order, the opcode map's lookup, and the decoder and encoder. -/

namespace Sys2Proof

/-! Byte order. -/

/-- The little-endian word of a word's own bytes is the word. -/
@[simp] theorem le32_wordByte (v : Word) :
    le32 (wordByte v 0) (wordByte v 1) (wordByte v 2) (wordByte v 3) = v := by
  apply BitVec.eq_of_getLsbD_eq
  intro i hi
  simp only [le32, wordByte, BitVec.getLsbD_append, BitVec.getLsbD_extractLsb']
  split
  · simp_all
  · split
    · have h1 : i - 8 < 8 := by omega
      have h2 : 8 * 1 + (i - 8) = i := by omega
      simp only [h1, h2, decide_true, Bool.true_and]
    · split
      · have h1 : i - 8 - 8 < 8 := by omega
        have h2 : 8 * 2 + (i - 8 - 8) = i := by omega
        simp only [h1, h2, decide_true, Bool.true_and]
      · have h1 : i - 8 - 8 - 8 < 8 := by omega
        have h2 : 8 * 3 + (i - 8 - 8 - 8) = i := by omega
        simp only [h1, h2, decide_true, Bool.true_and]

/-- The little-endian half-word of a half-word's own bytes is the half-word. -/
@[simp] theorem le16_halfByte (v : Half) : le16 (halfByte v 0) (halfByte v 1) = v := by
  apply BitVec.eq_of_getLsbD_eq
  intro i hi
  simp only [le16, halfByte, BitVec.getLsbD_append, BitVec.getLsbD_extractLsb']
  split
  · simp_all
  · have h1 : i - 8 < 8 := by omega
    have h2 : 8 * 1 + (i - 8) = i := by omega
    simp only [h1, h2, decide_true, Bool.true_and]

/-- Each byte of a little-endian word is the byte it was made of. -/
theorem wordByte_le32 (b0 b1 b2 b3 : Byte) :
    wordByte (le32 b0 b1 b2 b3) 0 = b0 ∧ wordByte (le32 b0 b1 b2 b3) 1 = b1 ∧
      wordByte (le32 b0 b1 b2 b3) 2 = b2 ∧ wordByte (le32 b0 b1 b2 b3) 3 = b3 := by
  refine ⟨?_, ?_, ?_, ?_⟩ <;>
  · apply BitVec.eq_of_getLsbD_eq
    intro i hi
    simp only [le32, wordByte, BitVec.getLsbD_append, BitVec.getLsbD_extractLsb', hi, decide_true,
      Bool.true_and]
    first
      | rw [if_pos (by omega)]
        congr 1
        omega
      | rw [if_neg (by omega), if_pos (by omega)]
        congr 1
        omega
      | rw [if_neg (by omega), if_neg (by omega), if_pos (by omega)]
        congr 1
        omega
      | rw [if_neg (by omega), if_neg (by omega), if_neg (by omega)]
        congr 1
        omega

/-- The same for a half-word. -/
theorem halfByte_le16 (b0 b1 : Byte) :
    halfByte (le16 b0 b1) 0 = b0 ∧ halfByte (le16 b0 b1) 1 = b1 := by
  refine ⟨?_, ?_⟩ <;>
  · apply BitVec.eq_of_getLsbD_eq
    intro i hi
    simp only [le16, halfByte, BitVec.getLsbD_append, BitVec.getLsbD_extractLsb', hi, decide_true,
      Bool.true_and]
    first
      | rw [if_pos (by omega)]
        congr 1
        omega
      | rw [if_neg (by omega)]
        congr 1
        omega

@[simp] theorem length_wordBytes (v : Word) : (wordBytes v).length = 4 := rfl

@[simp] theorem length_halfBytes (v : Half) : (halfBytes v).length = 2 := rfl

/-! The opcode map. -/

theorem mem_allMnemonics (mn : Mnemonic) : mn ∈ allMnemonics := by
  cases mn <;> decide

/-- Under an injective map two mnemonics with one code are one mnemonic (R120). -/
theorem code_injective {m : OpcodeMap} (h : m.injective = true) {a b : Mnemonic}
    (hab : m.code a = m.code b) : a = b := by
  have hn : (allMnemonics.map m.code).Nodup := by simpa [OpcodeMap.injective] using h
  exact List.inj_on_of_nodup_map hn (mem_allMnemonics a) (mem_allMnemonics b) hab

/-- Under an injective map the code of a mnemonic is looked up as that mnemonic (R120). -/
theorem lookup_code {m : OpcodeMap} (h : m.injective = true) (mn : Mnemonic) :
    m.lookup (m.code mn) = some mn := by
  cases hf : m.lookup (m.code mn) with
  | none =>
    have := List.find?_eq_none.mp hf mn (mem_allMnemonics mn)
    simp at this
  | some mn' =>
    have := List.find?_some hf
    have hc : m.code mn' = m.code mn := by simpa using this
    rw [code_injective h hc]

/-- What is looked up has the code it was looked up by (R120). -/
theorem code_of_lookup {m : OpcodeMap} {op : Byte} {mn : Mnemonic} (h : m.lookup op = some mn) :
    m.code mn = op := by
  have := List.find?_some h
  simpa using this

/-- A byte is unknown exactly when it is outside the image of the map (R120). -/
theorem lookup_eq_none {m : OpcodeMap} {op : Byte} :
    m.lookup op = none ↔ ∀ mn, m.code mn ≠ op := by
  constructor
  · intro h mn hc
    have := List.find?_eq_none.mp h mn (mem_allMnemonics mn)
    simp [hc] at this
  · intro h
    apply List.find?_eq_none.mpr
    intro mn _
    simp [h mn]

/-! The encoder and the decoder. -/

@[simp] theorem length_encode (m : OpcodeMap) (i : Instr) : (encode m i).length = i.size := by
  cases i <;> rfl

theorem size_pos (mn : Mnemonic) : 1 ≤ mn.size := by
  cases mn <;> decide

theorem size_le (mn : Mnemonic) : mn.size ≤ 6 := by
  cases mn <;> decide

/-- The fields read from an encoding make the instruction again. -/
theorem instrOfFields_encode (m : OpcodeMap) (i : Instr) (rest : List Byte) :
    instrOfFields i.mnemonic (readRecord i.mnemonic (encode m i ++ rest)) = i := by
  cases i <;>
    simp [encode, Instr.operandBytes, Instr.mnemonic, readRecord, Mnemonic.format, instrOfFields,
      wordBytes, halfBytes, List.getD]

@[simp] theorem readRecord_mnem (mn : Mnemonic) (bs : List Byte) :
    (readRecord mn bs).mnem = some mn := by
  cases mn <;> rfl

@[simp] theorem readRecord_size (mn : Mnemonic) (bs : List Byte) :
    (readRecord mn bs).size = mn.size := by
  cases mn <;> rfl

@[simp] theorem readRecord_known (mn : Mnemonic) (bs : List Byte) :
    (readRecord mn bs).known = true := by
  cases mn <;> rfl

@[simp] theorem readRecord_fmt (mn : Mnemonic) (bs : List Byte) :
    (readRecord mn bs).fmt = some mn.format := by
  cases mn <;> rfl

end Sys2Proof
end

