-- ==== Sys2Proof/Laws/Memory.lean ====
section
/-! SUPPORT. Reading after writing, the canonical form, and the memory of a byte string. -/

namespace Sys2Proof.Machine

/-! The canonical form. -/

theorem wf_cons {a : Nat} {b : Byte} {rest : Memory} :
    Memory.wf ((a, b) :: rest) = true ↔
      b ≠ Memory.unlisted ∧ (∀ c ∈ rest, a < c.1) ∧ Memory.wf rest = true := by
  simp [Memory.wf, and_assoc]

theorem below_cons {c : Host.Cell} {rest : Memory} {n : Nat} :
    Memory.below (c :: rest) n = true ↔ c.1 < n ∧ Memory.below rest n = true := by
  simp [Memory.below]

theorem mem_write {m : Memory} {a : Nat} {b : Byte} {c : Host.Cell}
    (h : c ∈ m.write a b) : c.1 = a ∨ c ∈ m := by
  induction m with
  | nil =>
    unfold Memory.write at h
    split at h <;> simp_all
  | cons e rest ih =>
    obtain ⟨k, v⟩ := e
    unfold Memory.write at h
    split at h
    · split at h
      · exact .inr h
      · rcases List.mem_cons.mp h with rfl | h
        · exact .inl rfl
        · exact .inr h
    · split at h
      · split at h
        · exact .inr (List.mem_cons_of_mem _ h)
        · rcases List.mem_cons.mp h with rfl | h
          · exact .inl rfl
          · exact .inr (List.mem_cons_of_mem _ h)
      · rcases List.mem_cons.mp h with h | h
        · simp [h]
        · rcases ih h with h | h <;> simp [h]

/-- A byte write keeps the canonical form. -/
theorem wf_write {m : Memory} (a : Nat) (b : Byte) (h : m.wf = true) : (m.write a b).wf = true := by
  induction m with
  | nil =>
    unfold Memory.write
    split <;> simp_all [Memory.wf]
  | cons e rest ih =>
    obtain ⟨k, v⟩ := e
    obtain ⟨hv, hk, hr⟩ := wf_cons.mp h
    unfold Memory.write
    split
    · rename_i hlt
      split
      · exact h
      · refine wf_cons.mpr ⟨by assumption, ?_, h⟩
        rintro c hc
        rcases List.mem_cons.mp hc with rfl | hc
        · exact hlt
        · exact lt_trans hlt (hk c hc)
    · split
      · subst a
        split
        · exact hr
        · exact wf_cons.mpr ⟨by assumption, hk, hr⟩
      · refine wf_cons.mpr ⟨hv, ?_, ih hr⟩
        intro c hc
        rcases mem_write hc with h1 | h1
        · omega
        · exact hk c h1

/-- A byte write below `n` keeps every entry below `n`. -/
theorem below_write {m : Memory} {a n : Nat} (b : Byte) (ha : a < n) (h : m.below n = true) :
    (m.write a b).below n = true := by
  simp only [Memory.below, List.all_eq_true, decide_eq_true_eq] at h ⊢
  intro c hc
  rcases mem_write hc with h1 | h1
  · omega
  · exact h c h1

theorem wf_writeBytes {m : Memory} (a : Nat) (bs : List Byte) (h : m.wf = true) :
    (m.writeBytes a bs).wf = true := by
  induction bs generalizing m a with
  | nil => exact h
  | cons b bs ih => exact ih (a + 1) (wf_write a b h)

theorem below_writeBytes {m : Memory} {a n : Nat} (bs : List Byte) (ha : a + bs.length ≤ n)
    (h : m.below n = true) : (m.writeBytes a bs).below n = true := by
  induction bs generalizing m a with
  | nil => exact h
  | cons b bs ih =>
    simp only [List.length_cons] at ha
    exact ih (by omega) (below_write b (by omega) h)

/-! Reading. -/

theorem read_of_lt {m : Memory} {a : Nat} (h : ∀ c ∈ m, a < c.1) : m.read a = Memory.unlisted := by
  induction m with
  | nil => rfl
  | cons e rest ih =>
    obtain ⟨k, v⟩ := e
    have hk : a < k := h (k, v) (by simp)
    have : a ≠ k := by omega
    simp only [Memory.read, this, if_false]
    exact ih fun c hc => h c (by simp [hc])

/-- Read after write, in a canonical memory. -/
theorem read_write {m : Memory} (a b : Nat) (v : Byte) (h : m.wf = true) :
    (m.write a v).read b = if b = a then v else m.read b := by
  induction m with
  | nil =>
    unfold Memory.write
    split <;> simp_all [Memory.read]
  | cons e rest ih =>
    obtain ⟨k, w⟩ := e
    obtain ⟨hv, hk, hr⟩ := wf_cons.mp h
    unfold Memory.write
    split
    · rename_i hlt
      split
      · split
        · subst b
          have : a ≠ k := by omega
          simp only [Memory.read, this, if_false]
          rw [read_of_lt (fun c hc => lt_trans hlt (hk c hc))]
          simp_all
        · rfl
      · simp [Memory.read]
    · split
      · subst a
        split
        · split
          · subst b
            rw [read_of_lt hk]
            simp_all
          · simp_all [Memory.read]
        · simp only [Memory.read]
          split <;> simp_all
      · simp only [Memory.read, ih hr]
        split <;> split <;> simp_all

/-- A byte write leaves every other address alone, in any memory. -/
theorem read_write_ne (m : Memory) {a b : Nat} (v : Byte) (h : b ≠ a) :
    (m.write a v).read b = m.read b := by
  induction m with
  | nil =>
    unfold Memory.write
    split <;> simp [Memory.read, h]
  | cons e rest ih =>
    obtain ⟨k, w⟩ := e
    unfold Memory.write
    split
    · split
      · rfl
      · simp [Memory.read, h]
    · split
      · subst a
        split <;> simp [Memory.read, h]
      · simp only [Memory.read, ih]

/-- Writing a byte string leaves every address outside it alone, in any memory. -/
theorem read_writeBytes_away (m : Memory) {a b : Nat} (bs : List Byte)
    (h : b < a ∨ a + bs.length ≤ b) : (m.writeBytes a bs).read b = m.read b := by
  induction bs generalizing m a with
  | nil => rfl
  | cons v bs ih =>
    simp only [List.length_cons] at h
    rw [show m.writeBytes a (v :: bs) = (m.write a v).writeBytes (a + 1) bs from rfl,
      ih (m.write a v) (by omega), read_write_ne m v (by omega)]

theorem read_writeBytes {m : Memory} (a b : Nat) (bs : List Byte) (h : m.wf = true) :
    (m.writeBytes a bs).read b =
      if a ≤ b ∧ b < a + bs.length then bs.getD (b - a) 0 else m.read b := by
  induction bs generalizing m a with
  | nil =>
    have : ¬ (a ≤ b ∧ b < a + ([] : List Byte).length) := by simp
    simp only [this, if_false]
    rfl
  | cons v bs ih =>
    rw [show m.writeBytes a (v :: bs) = (m.write a v).writeBytes (a + 1) bs from rfl,
      ih (a + 1) (wf_write a v h), read_write a b v h]
    by_cases hab : b = a
    · subst b
      simp
    · by_cases hin : a + 1 ≤ b ∧ b < a + 1 + bs.length
      · have h2 : a ≤ b ∧ b < a + (v :: bs).length := by simp; omega
        have h3 : b - a = (b - (a + 1)) + 1 := by omega
        simp only [hin, and_self, if_true, h2, h3, List.getD_cons_succ]
      · have h2 : ¬ (a ≤ b ∧ b < a + (v :: bs).length) := by simp; omega
        simp only [hin, if_false, hab, h2]

/-- A canonical memory is determined by what it reads as. -/
theorem eq_of_read_eq {m n : Memory} (hm : m.wf = true) (hn : n.wf = true)
    (h : ∀ a, m.read a = n.read a) : m = n := by
  induction m generalizing n with
  | nil =>
    cases n with
    | nil => rfl
    | cons e rest =>
      obtain ⟨k, v⟩ := e
      have := h k
      have hv := (wf_cons.mp hn).1
      simp [Memory.read] at this
      exact absurd this.symm hv
  | cons e rest ih =>
    obtain ⟨k, v⟩ := e
    obtain ⟨hv, hk, hr⟩ := wf_cons.mp hm
    cases n with
    | nil =>
      have := h k
      simp [Memory.read] at this
      exact absurd this hv
    | cons e' rest' =>
      obtain ⟨k', v'⟩ := e'
      obtain ⟨hv', hk', hr'⟩ := wf_cons.mp hn
      have hkk : k = k' := by
        rcases lt_trichotomy k k' with hlt | heq | hgt
        · have := h k
          have hne : k ≠ k' := by omega
          simp only [Memory.read, if_true, hne, if_false] at this
          rw [read_of_lt (fun c hc => lt_trans hlt (hk' c hc))] at this
          exact absurd this hv
        · exact heq
        · have := h k'
          have hne : k' ≠ k := by omega
          simp only [Memory.read, if_true, hne, if_false] at this
          rw [read_of_lt (fun c hc => lt_trans hgt (hk c hc))] at this
          exact absurd this.symm hv'
      subst hkk
      have hvv : v = v' := by simpa [Memory.read] using h k
      subst hvv
      congr 1
      refine ih hr hr' fun a => ?_
      by_cases ha : a = k
      · subst a
        rw [read_of_lt hk, read_of_lt hk']
      · simpa [Memory.read, ha] using h a

/-! The memory of a byte string. -/

theorem mem_ofBytes {a : Nat} {bs : List Byte} {c : Host.Cell} (h : c ∈ Memory.ofBytes a bs) :
    a ≤ c.1 ∧ c.1 < a + bs.length := by
  induction bs generalizing a with
  | nil => simp [Memory.ofBytes] at h
  | cons b bs ih =>
    unfold Memory.ofBytes at h
    split at h
    · have := ih h
      simp only [List.length_cons]; omega
    · rcases List.mem_cons.mp h with rfl | h
      · simp
      · have := ih h
        simp only [List.length_cons]; omega

theorem wf_ofBytes (a : Nat) (bs : List Byte) : (Memory.ofBytes a bs).wf = true := by
  induction bs generalizing a with
  | nil => rfl
  | cons b bs ih =>
    unfold Memory.ofBytes
    split
    · exact ih (a + 1)
    · refine wf_cons.mpr ⟨by assumption, ?_, ih (a + 1)⟩
      intro c hc
      have := (mem_ofBytes hc).1
      omega

theorem below_ofBytes {a n : Nat} {bs : List Byte} (h : a + bs.length ≤ n) :
    (Memory.ofBytes a bs).below n = true := by
  simp only [Memory.below, List.all_eq_true, decide_eq_true_eq]
  intro c hc
  have := (mem_ofBytes hc).2
  omega

theorem read_ofBytes (a b : Nat) (bs : List Byte) :
    (Memory.ofBytes a bs).read b =
      if a ≤ b ∧ b < a + bs.length then bs.getD (b - a) 0 else Memory.unlisted := by
  induction bs generalizing a with
  | nil =>
    have : ¬ (a ≤ b ∧ b < a + ([] : List Byte).length) := by simp
    simp only [this, if_false]
    rfl
  | cons v bs ih =>
    have step : (Memory.ofBytes a (v :: bs)).read b =
        if b = a then v else (Memory.ofBytes (a + 1) bs).read b := by
      by_cases hv : v = Memory.unlisted
      · by_cases hb : b = a
        · subst b
          simp only [Memory.ofBytes, hv, if_true]
          exact read_of_lt fun c hc => (mem_ofBytes hc).1
        · simp [Memory.ofBytes, hv, hb]
      · simp [Memory.ofBytes, hv, Memory.read]
    rw [step, ih (a + 1)]
    by_cases hab : b = a
    · subst b
      simp
    · by_cases hin : a + 1 ≤ b ∧ b < a + 1 + bs.length
      · have h2 : a ≤ b ∧ b < a + (v :: bs).length := by simp; omega
        have h3 : b - a = (b - (a + 1)) + 1 := by omega
        simp only [hab, if_false, hin, and_self, if_true, h2, h3, List.getD_cons_succ]
      · have h2 : ¬ (a ≤ b ∧ b < a + (v :: bs).length) := by simp; omega
        simp only [hab, hin, if_false, h2]

/-! Byte strings read from memory. -/

@[simp] theorem length_readBytes (m : Memory) (a n : Nat) : (m.readBytes a n).length = n := by
  induction n generalizing a with
  | zero => rfl
  | succ n ih => simp [Memory.readBytes, ih]

theorem getD_readBytes (m : Memory) (a n k : Nat) (h : k < n) :
    (m.readBytes a n).getD k 0 = m.read (a + k) := by
  induction n generalizing a k with
  | zero => omega
  | succ n ih =>
    cases k with
    | zero => simp [Memory.readBytes]
    | succ k =>
      have := ih (a + 1) k (by omega)
      simpa [Memory.readBytes, Nat.add_assoc, Nat.add_comm 1] using this

/-- An address outside a memory that lies below `n` reads as unlisted. -/
theorem read_of_below {m : Memory} {n a : Nat} (h : m.below n = true) (ha : n ≤ a) :
    m.read a = Memory.unlisted := by
  induction m with
  | nil => rfl
  | cons e rest ih =>
    obtain ⟨k, v⟩ := e
    obtain ⟨hk, hr⟩ := below_cons.mp h
    have : a ≠ k := by simp at hk; omega
    simp only [Memory.read, this, if_false]
    exact ih hr

end Sys2Proof.Machine
end

