-- ==== Sys2Proof/Laws/State.lean ====
section
/-! SUPPORT. What each named update of State does to each field: one lemma per field and update, true by rfl. -/

namespace Sys2Proof.Machine

/-! setReg -/

@[simp] theorem setReg_cfg (s : State) (i : Fin 8) (v : Word) : (s.setReg i v).cfg = s.cfg := rfl
@[simp] theorem setReg_x (s : State) (i : Fin 8) (v : Word) : (s.setReg i v).x = s.x.set i v := rfl
@[simp] theorem setReg_pc (s : State) (i : Fin 8) (v : Word) : (s.setReg i v).pc = s.pc := rfl
@[simp] theorem setReg_sp (s : State) (i : Fin 8) (v : Word) : (s.setReg i v).sp = s.sp := rfl
@[simp] theorem setReg_flags (s : State) (i : Fin 8) (v : Word) : (s.setReg i v).flags = s.flags := rfl
@[simp] theorem setReg_halted (s : State) (i : Fin 8) (v : Word) : (s.setReg i v).halted = s.halted := rfl
@[simp] theorem setReg_ram (s : State) (i : Fin 8) (v : Word) : (s.setReg i v).ram = s.ram := rfl
@[simp] theorem setReg_devmap (s : State) (i : Fin 8) (v : Word) : (s.setReg i v).devmap = s.devmap := rfl
@[simp] theorem setReg_bp (s : State) (i : Fin 8) (v : Word) : (s.setReg i v).bp = s.bp := rfl
@[simp] theorem setReg_inp (s : State) (i : Fin 8) (v : Word) : (s.setReg i v).inp = s.inp := rfl
@[simp] theorem setReg_out (s : State) (i : Fin 8) (v : Word) : (s.setReg i v).out = s.out := rfl
@[simp] theorem setReg_devLog (s : State) (i : Fin 8) (v : Word) : (s.setReg i v).devLog = s.devLog := rfl
@[simp] theorem setReg_status (s : State) (i : Fin 8) (v : Word) : (s.setReg i v).status = s.status := rfl
@[simp] theorem setReg_refusalMark (s : State) (i : Fin 8) (v : Word) : (s.setReg i v).refusalMark = s.refusalMark := rfl

/-! putZ -/

@[simp] theorem putZ_cfg (s : State) (z : Bool) : (s.putZ z).cfg = s.cfg := rfl
@[simp] theorem putZ_x (s : State) (z : Bool) : (s.putZ z).x = s.x := rfl
@[simp] theorem putZ_pc (s : State) (z : Bool) : (s.putZ z).pc = s.pc := rfl
@[simp] theorem putZ_sp (s : State) (z : Bool) : (s.putZ z).sp = s.sp := rfl
@[simp] theorem putZ_flags (s : State) (z : Bool) : (s.putZ z).flags = withZ s.flags z := rfl
@[simp] theorem putZ_halted (s : State) (z : Bool) : (s.putZ z).halted = s.halted := rfl
@[simp] theorem putZ_ram (s : State) (z : Bool) : (s.putZ z).ram = s.ram := rfl
@[simp] theorem putZ_devmap (s : State) (z : Bool) : (s.putZ z).devmap = s.devmap := rfl
@[simp] theorem putZ_bp (s : State) (z : Bool) : (s.putZ z).bp = s.bp := rfl
@[simp] theorem putZ_inp (s : State) (z : Bool) : (s.putZ z).inp = s.inp := rfl
@[simp] theorem putZ_out (s : State) (z : Bool) : (s.putZ z).out = s.out := rfl
@[simp] theorem putZ_devLog (s : State) (z : Bool) : (s.putZ z).devLog = s.devLog := rfl
@[simp] theorem putZ_status (s : State) (z : Bool) : (s.putZ z).status = s.status := rfl
@[simp] theorem putZ_refusalMark (s : State) (z : Bool) : (s.putZ z).refusalMark = s.refusalMark := rfl

/-! setZ -/

@[simp] theorem setZ_cfg (s : State) (v : Word) : (s.setZ v).cfg = s.cfg := rfl
@[simp] theorem setZ_x (s : State) (v : Word) : (s.setZ v).x = s.x := rfl
@[simp] theorem setZ_pc (s : State) (v : Word) : (s.setZ v).pc = s.pc := rfl
@[simp] theorem setZ_sp (s : State) (v : Word) : (s.setZ v).sp = s.sp := rfl
@[simp] theorem setZ_flags (s : State) (v : Word) : (s.setZ v).flags = withZ s.flags (v == 0) := rfl
@[simp] theorem setZ_halted (s : State) (v : Word) : (s.setZ v).halted = s.halted := rfl
@[simp] theorem setZ_ram (s : State) (v : Word) : (s.setZ v).ram = s.ram := rfl
@[simp] theorem setZ_devmap (s : State) (v : Word) : (s.setZ v).devmap = s.devmap := rfl
@[simp] theorem setZ_bp (s : State) (v : Word) : (s.setZ v).bp = s.bp := rfl
@[simp] theorem setZ_inp (s : State) (v : Word) : (s.setZ v).inp = s.inp := rfl
@[simp] theorem setZ_out (s : State) (v : Word) : (s.setZ v).out = s.out := rfl
@[simp] theorem setZ_devLog (s : State) (v : Word) : (s.setZ v).devLog = s.devLog := rfl
@[simp] theorem setZ_status (s : State) (v : Word) : (s.setZ v).status = s.status := rfl
@[simp] theorem setZ_refusalMark (s : State) (v : Word) : (s.setZ v).refusalMark = s.refusalMark := rfl

/-! emit -/

@[simp] theorem emit_cfg (s : State) (v : Word) : (s.emit v).cfg = s.cfg := rfl
@[simp] theorem emit_x (s : State) (v : Word) : (s.emit v).x = s.x := rfl
@[simp] theorem emit_pc (s : State) (v : Word) : (s.emit v).pc = s.pc := rfl
@[simp] theorem emit_sp (s : State) (v : Word) : (s.emit v).sp = s.sp := rfl
@[simp] theorem emit_flags (s : State) (v : Word) : (s.emit v).flags = s.flags := rfl
@[simp] theorem emit_halted (s : State) (v : Word) : (s.emit v).halted = s.halted := rfl
@[simp] theorem emit_ram (s : State) (v : Word) : (s.emit v).ram = s.ram := rfl
@[simp] theorem emit_devmap (s : State) (v : Word) : (s.emit v).devmap = s.devmap := rfl
@[simp] theorem emit_bp (s : State) (v : Word) : (s.emit v).bp = s.bp := rfl
@[simp] theorem emit_inp (s : State) (v : Word) : (s.emit v).inp = s.inp := rfl
@[simp] theorem emit_out (s : State) (v : Word) : (s.emit v).out = s.out ++ [v] := rfl
@[simp] theorem emit_devLog (s : State) (v : Word) : (s.emit v).devLog = s.devLog := rfl
@[simp] theorem emit_status (s : State) (v : Word) : (s.emit v).status = s.status := rfl
@[simp] theorem emit_refusalMark (s : State) (v : Word) : (s.emit v).refusalMark = s.refusalMark := rfl

/-! faulted -/

@[simp] theorem faulted_cfg (s : State) (c : ExecFault) : (s.faulted c).cfg = s.cfg := rfl
@[simp] theorem faulted_x (s : State) (c : ExecFault) : (s.faulted c).x = s.x := rfl
@[simp] theorem faulted_pc (s : State) (c : ExecFault) : (s.faulted c).pc = s.pc := rfl
@[simp] theorem faulted_sp (s : State) (c : ExecFault) : (s.faulted c).sp = s.sp := rfl
@[simp] theorem faulted_flags (s : State) (c : ExecFault) : (s.faulted c).flags = s.flags := rfl
@[simp] theorem faulted_halted (s : State) (c : ExecFault) : (s.faulted c).halted = true := rfl
@[simp] theorem faulted_ram (s : State) (c : ExecFault) : (s.faulted c).ram = s.ram := rfl
@[simp] theorem faulted_devmap (s : State) (c : ExecFault) : (s.faulted c).devmap = s.devmap := rfl
@[simp] theorem faulted_bp (s : State) (c : ExecFault) : (s.faulted c).bp = s.bp := rfl
@[simp] theorem faulted_inp (s : State) (c : ExecFault) : (s.faulted c).inp = s.inp := rfl
@[simp] theorem faulted_out (s : State) (c : ExecFault) : (s.faulted c).out = s.out := rfl
@[simp] theorem faulted_devLog (s : State) (c : ExecFault) : (s.faulted c).devLog = s.devLog := rfl
@[simp] theorem faulted_status (s : State) (c : ExecFault) : (s.faulted c).status = .execFault c := rfl
@[simp] theorem faulted_refusalMark (s : State) (c : ExecFault) : (s.faulted c).refusalMark = s.refusalMark := rfl

/-! markRefused -/

@[simp] theorem markRefused_cfg (s : State) : s.markRefused.cfg = s.cfg := rfl
@[simp] theorem markRefused_x (s : State) : s.markRefused.x = s.x := rfl
@[simp] theorem markRefused_pc (s : State) : s.markRefused.pc = s.pc := rfl
@[simp] theorem markRefused_sp (s : State) : s.markRefused.sp = s.sp := rfl
@[simp] theorem markRefused_flags (s : State) : s.markRefused.flags = s.flags := rfl
@[simp] theorem markRefused_halted (s : State) : s.markRefused.halted = s.halted := rfl
@[simp] theorem markRefused_ram (s : State) : s.markRefused.ram = s.ram := rfl
@[simp] theorem markRefused_devmap (s : State) : s.markRefused.devmap = s.devmap := rfl
@[simp] theorem markRefused_bp (s : State) : s.markRefused.bp = s.bp := rfl
@[simp] theorem markRefused_inp (s : State) : s.markRefused.inp = s.inp := rfl
@[simp] theorem markRefused_out (s : State) : s.markRefused.out = s.out := rfl
@[simp] theorem markRefused_devLog (s : State) : s.markRefused.devLog = s.devLog := rfl
@[simp] theorem markRefused_status (s : State) : s.markRefused.status = s.status := rfl
@[simp] theorem markRefused_refusalMark (s : State) : s.markRefused.refusalMark = true := rfl

/-! powerOn -/

@[simp] theorem powerOn_cfg (s : State) : (powerOn s).cfg = s.cfg := rfl
@[simp] theorem powerOn_x (s : State) : (powerOn s).x = Vector.replicate 8 0 := rfl
@[simp] theorem powerOn_pc (s : State) : (powerOn s).pc = 0 := rfl
@[simp] theorem powerOn_sp (s : State) : (powerOn s).sp = BitVec.ofNat 32 (s.cfg.memSize - 4) := rfl
@[simp] theorem powerOn_flags (s : State) : (powerOn s).flags = 0 := rfl
@[simp] theorem powerOn_halted (s : State) : (powerOn s).halted = false := rfl
@[simp] theorem powerOn_ram (s : State) : (powerOn s).ram = s.ram := rfl
@[simp] theorem powerOn_devmap (s : State) : (powerOn s).devmap = s.devmap := rfl
@[simp] theorem powerOn_bp (s : State) : (powerOn s).bp = s.bp := rfl
@[simp] theorem powerOn_inp (s : State) : (powerOn s).inp = s.inp := rfl
@[simp] theorem powerOn_out (s : State) : (powerOn s).out = s.out := rfl
@[simp] theorem powerOn_devLog (s : State) : (powerOn s).devLog = s.devLog := rfl
@[simp] theorem powerOn_status (s : State) : (powerOn s).status = .idle := rfl
@[simp] theorem powerOn_refusalMark (s : State) : (powerOn s).refusalMark = s.refusalMark := rfl

/-! supplyInput -/

@[simp] theorem supplyInput_cfg (a : InputAnswer) (s : State) : (supplyInput a s).cfg = s.cfg := rfl
@[simp] theorem supplyInput_x (a : InputAnswer) (s : State) : (supplyInput a s).x = s.x := rfl
@[simp] theorem supplyInput_pc (a : InputAnswer) (s : State) : (supplyInput a s).pc = s.pc := rfl
@[simp] theorem supplyInput_sp (a : InputAnswer) (s : State) : (supplyInput a s).sp = s.sp := rfl
@[simp] theorem supplyInput_flags (a : InputAnswer) (s : State) : (supplyInput a s).flags = s.flags := rfl
@[simp] theorem supplyInput_halted (a : InputAnswer) (s : State) : (supplyInput a s).halted = s.halted := rfl
@[simp] theorem supplyInput_ram (a : InputAnswer) (s : State) : (supplyInput a s).ram = s.ram := rfl
@[simp] theorem supplyInput_devmap (a : InputAnswer) (s : State) : (supplyInput a s).devmap = s.devmap := rfl
@[simp] theorem supplyInput_bp (a : InputAnswer) (s : State) : (supplyInput a s).bp = s.bp := rfl
@[simp] theorem supplyInput_inp (a : InputAnswer) (s : State) : (supplyInput a s).inp = s.inp ++ [a] := rfl
@[simp] theorem supplyInput_out (a : InputAnswer) (s : State) : (supplyInput a s).out = s.out := rfl
@[simp] theorem supplyInput_devLog (a : InputAnswer) (s : State) : (supplyInput a s).devLog = s.devLog := rfl
@[simp] theorem supplyInput_status (a : InputAnswer) (s : State) : (supplyInput a s).status = s.status := rfl
@[simp] theorem supplyInput_refusalMark (a : InputAnswer) (s : State) : (supplyInput a s).refusalMark = s.refusalMark := rfl

/-! Reading a register and Z after an update. -/

theorem reg_congr {s t : State} (h : t.x = s.x) (r : Fin 8) : t.reg r = s.reg r := by
  simp [State.reg, h]

@[simp] theorem reg_setReg_self (s : State) (i : Fin 8) (v : Word) : (s.setReg i v).reg i = v := by
  simp [State.reg, State.setReg]

theorem reg_setReg_ne (s : State) (i j : Fin 8) (v : Word) (h : j ≠ i) :
    (s.setReg i v).reg j = s.reg j := by
  have hv : i.val ≠ j.val := fun e => h (Fin.ext e.symm)
  simp [State.reg, State.setReg, hv]

@[simp] theorem reg_putZ (s : State) (z : Bool) (r : Fin 8) : (s.putZ z).reg r = s.reg r := rfl

@[simp] theorem reg_setZ (s : State) (v : Word) (r : Fin 8) : (s.setZ v).reg r = s.reg r := rfl

@[simp] theorem reg_emit (s : State) (v : Word) (r : Fin 8) : (s.emit v).reg r = s.reg r := rfl

@[simp] theorem reg_faulted (s : State) (c : ExecFault) (r : Fin 8) : (s.faulted c).reg r = s.reg r := rfl

theorem getLsbD_withZ_zero (f : Word) (z : Bool) : (withZ f z).getLsbD 0 = z := by
  rw [withZ, BitVec.getLsbD_append]
  cases z <;> rfl

theorem getLsbD_withZ_high (f : Word) (z : Bool) (k : Nat) (h : 1 ≤ k) :
    (withZ f z).getLsbD k = f.getLsbD k := by
  have hk : ¬ k < 1 := by omega
  have he : 1 + (k - 1) = k := by omega
  simp only [withZ, BitVec.getLsbD_append, hk, if_false, BitVec.getLsbD_extractLsb', he]
  by_cases hb : k - 1 < 31
  · simp [hb]
  · have : f.getLsbD k = false := BitVec.getLsbD_of_ge f k (by omega)
    simp [this]

@[simp] theorem z_putZ (s : State) (z : Bool) : (s.putZ z).z = z :=
  getLsbD_withZ_zero s.flags z

@[simp] theorem z_setZ (s : State) (v : Word) : (s.setZ v).z = (v == 0) :=
  getLsbD_withZ_zero s.flags (v == 0)

end Sys2Proof.Machine
end

