-- ==== Sys2Proof/Laws/Ops.lean ====
section
/-! SUPPORT. What the shared operations do: the register check, the bus and the stack, each said once. -/

namespace Sys2Proof.Machine

/-! The register check (40_cycle.md R175). -/

@[simp] theorem regIndex_regField (r : Fin 8) : regIndex (regField r) = some r := by
  revert r
  decide

theorem regIndex_of_ge {r : Byte} (h : 8 ≤ r.toNat) : regIndex r = none := by
  have : ¬ r.toNat < 8 := by omega
  simp [regIndex, this]

theorem regField_of_regIndex {r : Byte} {i : Fin 8} (h : regIndex r = some i) : r = regField i := by
  unfold regIndex at h
  split at h
  · rename_i hlt
    cases h
    apply BitVec.eq_of_toNat_eq
    simp [regField]
  · cases h

theorem regIndex_eq_none {r : Byte} : regIndex r = none ↔ regFieldOk r = false := by
  unfold regIndex regFieldOk
  split <;> simp_all

@[simp] theorem withReg_regField (r : Fin 8) (s : State) (k : Fin 8 → StepResult) :
    withReg (regField r) s k = k r := by
  simp [withReg]

theorem withReg_of_ge {r : Byte} (h : 8 ≤ r.toNat) (s : State) (k : Fin 8 → StepResult) :
    withReg r s k = s.raise .invalidRegister := by
  simp [withReg, regIndex_of_ge h]

/-- All a checked register field can lead to. -/
theorem withReg_cases (r : Byte) (s : State) (k : Fin 8 → StepResult) :
    (∃ i, r = regField i ∧ withReg r s k = k i) ∨
      (regFieldOk r = false ∧ withReg r s k = s.raise .invalidRegister) := by
  cases h : regIndex r with
  | some i => exact .inl ⟨i, regField_of_regIndex h, by simp [withReg, h]⟩
  | none => exact .inr ⟨regIndex_eq_none.mp h, by simp [withReg, h]⟩

/-! The bus (20_memory.md R72 to R79). -/

@[simp] theorem resolve_nil (a : Nat) : resolve [] a = .ram := rfl

/-- An address goes to RAM exactly when no window contains it (R72). -/
theorem resolve_eq_ram {devmap : List DeviceMapping} {a : Nat} :
    resolve devmap a = .ram ↔ ∀ m ∈ devmap, m.contains a = false := by
  unfold resolve
  split
  · rename_i m hm
    have h1 := List.mem_of_find?_eq_some hm
    have h2 := List.find?_some hm
    simp only [reduceCtorEq, false_iff, not_forall]
    exact ⟨m, h1, by simp_all⟩
  · rename_i hm
    simpa using hm

theorem memRead_ram {s : State} {addr : Word} (hr : resolve s.devmap addr.toNat = .ram)
    (hb : addr.toNat + 4 ≤ s.cfg.memSize) :
    s.memRead addr = .ok (s.ram.readWord addr.toNat, s) := by
  have : ¬ addr.toNat + 4 > s.cfg.memSize := by omega
  simp [State.memRead, hr, this]

theorem memRead_ram_out {s : State} {addr : Word} (hr : resolve s.devmap addr.toNat = .ram)
    (hb : s.cfg.memSize < addr.toNat + 4) : s.memRead addr = .error .memOutOfRange := by
  simp [State.memRead, hr, hb]

/-- All a data read can answer: an error, the RAM word, or a device's value with the access recorded. -/
theorem memRead_cases (s : State) (addr : Word) :
    (∃ e, s.memRead addr = .error e) ∨
      (addr.toNat + 4 ≤ s.cfg.memSize ∧ s.memRead addr = .ok (s.ram.readWord addr.toNat, s)) ∨
      (∃ dev off v, resolve s.devmap addr.toNat = .device dev off ∧
        s.memRead addr = .ok (v, { s with devLog := s.devLog ++ [.read dev off v] })) := by
  unfold State.memRead
  split
  · rename_i dev off hres
    split
    · rename_i v hv
      exact .inr (.inr ⟨dev, off, v, hres, rfl⟩)
    · exact .inl ⟨_, rfl⟩
  · split
    · exact .inl ⟨_, rfl⟩
    · exact .inr (.inl ⟨by omega, rfl⟩)

theorem memWrite_ram {s : State} {addr v : Word} (hr : resolve s.devmap addr.toNat = .ram)
    (hb : addr.toNat + 4 ≤ s.cfg.memSize) :
    s.memWrite addr v = .ok { s with ram := s.ram.writeWord addr.toNat v } := by
  have : ¬ addr.toNat + 4 > s.cfg.memSize := by omega
  simp [State.memWrite, hr, this]

theorem memWrite_ram_out {s : State} {addr v : Word} (hr : resolve s.devmap addr.toNat = .ram)
    (hb : s.cfg.memSize < addr.toNat + 4) : s.memWrite addr v = .error .memOutOfRange := by
  simp [State.memWrite, hr, hb]

/-- All a data write can answer: an error, RAM written, or a device access recorded. -/
theorem memWrite_cases (s : State) (addr v : Word) :
    (∃ e, s.memWrite addr v = .error e) ∨
      (resolve s.devmap addr.toNat = .ram ∧ addr.toNat + 4 ≤ s.cfg.memSize ∧
        s.memWrite addr v = .ok { s with ram := s.ram.writeWord addr.toNat v }) ∨
      (∃ dev off, resolve s.devmap addr.toNat = .device dev off ∧
        s.memWrite addr v = .ok { s with devLog := s.devLog ++ [.write dev off v] }) := by
  unfold State.memWrite
  split
  · rename_i dev off hres
    split
    · exact .inr (.inr ⟨dev, off, hres, rfl⟩)
    · exact .inl ⟨_, rfl⟩
  · rename_i hres
    split
    · exact .inl ⟨_, rfl⟩
    · exact .inr (.inl ⟨hres, by omega, rfl⟩)

/-! Words in RAM (R75). -/

/-- The byte at `b` after a word is written at `a`. -/
theorem read_writeWord {m : Memory} (a b : Nat) (v : Word) (h : m.wf = true) :
    (m.writeWord a v).read b =
      if a ≤ b ∧ b < a + 4 then wordByte v (b - a) else m.read b := by
  rw [Memory.writeWord, read_writeBytes a b (wordBytes v) h]
  by_cases hin : a ≤ b ∧ b < a + 4
  · have hin' : a ≤ b ∧ b < a + (wordBytes v).length := hin
    rw [if_pos hin', if_pos hin]
    have h4 : b - a = 0 ∨ b - a = 1 ∨ b - a = 2 ∨ b - a = 3 := by omega
    rcases h4 with h0 | h0 | h0 | h0 <;> rw [h0] <;> rfl
  · have hin' : ¬ (a ≤ b ∧ b < a + (wordBytes v).length) := hin
    rw [if_neg hin', if_neg hin]

/-- A word written is the word read back (R75, R93). -/
theorem readWord_writeWord {m : Memory} (a : Nat) (v : Word) (h : m.wf = true) :
    (m.writeWord a v).readWord a = v := by
  unfold Memory.readWord
  rw [read_writeWord a a v h, read_writeWord a (a + 1) v h, read_writeWord a (a + 2) v h,
    read_writeWord a (a + 3) v h]
  simp

/-- A word read away from the written bytes is as before. -/
theorem readWord_writeWord_away {m : Memory} (a b : Nat) (v : Word) (h : m.wf = true)
    (hab : b + 4 ≤ a ∨ a + 4 ≤ b) : (m.writeWord a v).readWord b = m.readWord b := by
  unfold Memory.readWord
  rw [read_writeWord a b v h, read_writeWord a (b + 1) v h, read_writeWord a (b + 2) v h,
    read_writeWord a (b + 3) v h, if_neg (by omega), if_neg (by omega), if_neg (by omega),
    if_neg (by omega)]

theorem wf_writeWord {m : Memory} (a : Nat) (v : Word) (h : m.wf = true) :
    (m.writeWord a v).wf = true :=
  wf_writeBytes a _ h

theorem below_writeWord {m : Memory} {a n : Nat} (v : Word) (ha : a + 4 ≤ n)
    (h : m.below n = true) : (m.writeWord a v).below n = true :=
  below_writeBytes _ (by simpa using ha) h

/-! The stack (44_stack.md R260 to R266). -/

/-- All the stack part of PUSH and CALL can answer. -/
theorem pushWord_cases (s : State) (v pc : Word) :
    (s.sp.toNat < 4 ∧ s.pushWord v pc = s.raise .stackOverflow) ∨
      (∃ e, s.pushWord v pc = .fault e) ∨
      (∃ s', s.memWrite (s.sp - 4) v = .ok s' ∧
        s.pushWord v pc = { s' with sp := s.sp - 4 }.complete pc) := by
  unfold State.pushWord
  split
  · exact .inl ⟨by assumption, rfl⟩
  · split
    · exact .inr (.inl ⟨_, rfl⟩)
    · exact .inr (.inr ⟨_, by assumption, rfl⟩)

/-- All the stack part of POP and RET can answer. -/
theorem popWord_cases (s : State) (k : Word → State → StepResult) :
    (s.cfg.memSize < s.sp.toNat + 4 ∧ s.popWord k = s.raise .stackUnderflow) ∨
      (∃ e, s.popWord k = .fault e) ∨
      (∃ v s', s.memRead s.sp = .ok (v, s') ∧ s.popWord k = k v { s' with sp := s.sp + 4 }) := by
  unfold State.popWord
  split
  · exact .inl ⟨by omega, rfl⟩
  · split
    · exact .inr (.inl ⟨_, rfl⟩)
    · exact .inr (.inr ⟨_, _, by assumption, rfl⟩)

end Sys2Proof.Machine
end

