-- ==== Sys2Proof/Laws/Step.lean ====
section
/-! SUPPORT. What an instruction and a step can do, said once: every later proof about a step cites these. -/

namespace Sys2Proof.Machine

/-- What a completed instruction may change: the setup and the refusal mark stay, RAM changes by at most one word inside it, and FLAGS by at
most Z. -/
structure Effect (s t : State) : Prop where
  cfg    : t.cfg = s.cfg
  devmap : t.devmap = s.devmap
  bp     : t.bp = s.bp
  mark   : t.refusalMark = s.refusalMark
  flags  : t.flags = s.flags ∨ ∃ z, t.flags = withZ s.flags z
  ram    : t.ram = s.ram ∨ ∃ a v, a + 4 ≤ s.cfg.memSize ∧ t.ram = s.ram.writeWord a v
  status : t.status = .executed

/-- How an instruction that answers a next state ends. -/
inductive InstrEnd (s : State) : State → Prop where
  | completed (t : State) (e : Effect s t) : InstrEnd s t
  | fault (c : ExecFault) (h : c ≠ .inputFailure) : InstrEnd s (s.faulted c)
  | inputFailure (rest : List InputAnswer) (h : s.inp = .failure :: rest) :
      InstrEnd s ({ s with inp := rest }.faulted .inputFailure)
  | waiting (h : s.inp = []) : InstrEnd s { s with status := .waitIn }

/-- Every next state an instruction answers is one of the ends above; it never answers a refusal. -/
def EndsWell (s : State) (r : StepResult) : Prop :=
  match r with
  | .next t => InstrEnd s t
  | .fault _ => True
  | .refused _ => False

theorem endsWell_raise (s : State) (c : ExecFault) (h : c ≠ .inputFailure) :
    EndsWell s (s.raise c) :=
  InstrEnd.fault c h

theorem endsWell_withReg (r : Byte) (s : State) (k : Fin 8 → StepResult)
    (h : ∀ i, EndsWell s (k i)) : EndsWell s (withReg r s k) := by
  rcases withReg_cases r s k with ⟨i, -, e⟩ | ⟨-, e⟩ <;> rw [e]
  · exact h i
  · exact endsWell_raise s _ (by decide)

theorem endsWell_pushWord (s : State) (v pc : Word) : EndsWell s (s.pushWord v pc) := by
  rcases pushWord_cases s v pc with ⟨-, e⟩ | ⟨f, e⟩ | ⟨s', hw, e⟩ <;> rw [e]
  · exact endsWell_raise s _ (by decide)
  · trivial
  · rcases memWrite_cases s (s.sp - 4) v with ⟨f, h⟩ | ⟨-, hb, h⟩ | ⟨dev, off, -, h⟩ <;>
      rw [hw] at h <;> cases h
    · exact .completed _ ⟨rfl, rfl, rfl, rfl, .inl rfl, .inr ⟨_, v, hb, rfl⟩, rfl⟩
    · exact .completed _ ⟨rfl, rfl, rfl, rfl, .inl rfl, .inl rfl, rfl⟩

/-- A read leaves everything but the device log. -/
theorem memRead_ok {s s' : State} {addr v : Word} (h : s.memRead addr = .ok (v, s')) :
    s' = { s with devLog := s'.devLog } := by
  rcases memRead_cases s addr with ⟨e, h'⟩ | ⟨-, h'⟩ | ⟨dev, off, w, -, h'⟩ <;>
    rw [h] at h' <;> cases h' <;> rfl

/-- What an instruction can do: each of its next states is an `InstrEnd`. -/
theorem exec_endsWell (i : Instr) (s : State) : EndsWell s (exec i s) := by
  cases i with
  | halt => exact .completed _ ⟨rfl, rfl, rfl, rfl, .inl rfl, .inl rfl, rfl⟩
  | ret =>
    show EndsWell s (execRet s)
    unfold execRet
    rcases popWord_cases s fun t s' => s'.complete t with ⟨-, e⟩ | ⟨f, e⟩ | ⟨v, s', hr, e⟩ <;> rw [e]
    · exact endsWell_raise s _ (by decide)
    · trivial
    · rw [memRead_ok hr]
      exact .completed _ ⟨rfl, rfl, rfl, rfl, .inl rfl, .inl rfl, rfl⟩
  | loadi d imm =>
    exact endsWell_withReg _ _ _ fun d => .completed _ ⟨rfl, rfl, rfl, rfl, .inr ⟨_, rfl⟩, .inl rfl, rfl⟩
  | load d b off =>
    refine endsWell_withReg _ _ _ fun d => endsWell_withReg _ _ _ fun b => ?_
    rcases memRead_cases s (s.effAddr b off) with ⟨e, h⟩ | ⟨-, h⟩ | ⟨dev, o, v, -, h⟩ <;>
      simp only [h]
    · trivial
    · exact .completed _ ⟨rfl, rfl, rfl, rfl, .inr ⟨_, rfl⟩, .inl rfl, rfl⟩
    · exact .completed _ ⟨rfl, rfl, rfl, rfl, .inr ⟨_, rfl⟩, .inl rfl, rfl⟩
  | store b r off =>
    refine endsWell_withReg _ _ _ fun b => endsWell_withReg _ _ _ fun r => ?_
    rcases memWrite_cases s (s.effAddr b off) (s.reg r) with ⟨e, h⟩ | ⟨-, hb, h⟩ | ⟨dev, o, -, h⟩ <;>
      simp only [h]
    · trivial
    · exact .completed _ ⟨rfl, rfl, rfl, rfl, .inl rfl, .inr ⟨_, _, hb, rfl⟩, rfl⟩
    · exact .completed _ ⟨rfl, rfl, rfl, rfl, .inl rfl, .inl rfl, rfl⟩
  | add d a b | sub d a b | and d a b | or d a b | xor d a b =>
    exact endsWell_withReg _ _ _ fun d => endsWell_withReg _ _ _ fun a => endsWell_withReg _ _ _ fun b =>
      .completed _ ⟨rfl, rfl, rfl, rfl, .inr ⟨_, rfl⟩, .inl rfl, rfl⟩
  | cmp a b =>
    exact endsWell_withReg _ _ _ fun a => endsWell_withReg _ _ _ fun b =>
      .completed _ ⟨rfl, rfl, rfl, rfl, .inr ⟨_, rfl⟩, .inl rfl, rfl⟩
  | push r => exact endsWell_withReg _ _ _ fun r => endsWell_pushWord s _ _
  | pop d =>
    refine endsWell_withReg _ _ _ fun d => ?_
    rcases popWord_cases s fun v s' => ((s'.setReg d v).setZ v).advance 2 with
      ⟨-, e⟩ | ⟨f, e⟩ | ⟨v, s', hr, e⟩ <;> rw [e]
    · exact endsWell_raise s _ (by decide)
    · trivial
    · rw [memRead_ok hr]
      exact .completed _ ⟨rfl, rfl, rfl, rfl, .inr ⟨_, rfl⟩, .inl rfl, rfl⟩
  | out r =>
    exact endsWell_withReg _ _ _ fun r => .completed _ ⟨rfl, rfl, rfl, rfl, .inl rfl, .inl rfl, rfl⟩
  | inp d =>
    refine endsWell_withReg _ _ _ fun d => ?_
    cases hi : s.inp with
    | nil => exact .waiting hi
    | cons a rest =>
      cases a with
      | value v => exact .completed _ ⟨rfl, rfl, rfl, rfl, .inr ⟨_, rfl⟩, .inl rfl, rfl⟩
      | failure => exact .inputFailure rest hi
  | jmp t => exact .completed _ ⟨rfl, rfl, rfl, rfl, .inl rfl, .inl rfl, rfl⟩
  | jz t =>
    show EndsWell s (branch s.z t s)
    unfold branch
    split <;> exact .completed _ ⟨rfl, rfl, rfl, rfl, .inl rfl, .inl rfl, rfl⟩
  | jnz t =>
    show EndsWell s (branch (!s.z) t s)
    unfold branch
    split <;> exact .completed _ ⟨rfl, rfl, rfl, rfl, .inl rfl, .inl rfl, rfl⟩
  | call t => exact endsWell_pushWord s _ _

/-- What a step can do (40_cycle.md R173): a halted machine stays; a fetch stops the step; an unknown opcode faults; else
the decoded instruction runs. -/
theorem step_cases (s : State) :
    (s.halted = true ∧ step s = .next { s with status := .alreadyHalted }) ∨
      (s.halted = false ∧ ∃ e, s.decodeAt s.pc.toNat = .error e ∧ step s = e.stop) ∨
      (s.halted = false ∧ ∃ D, s.decodeAt s.pc.toNat = .ok D ∧ D.instr = none ∧
        step s = .next (s.faulted .unimplementedOpcode)) ∨
      (s.halted = false ∧ ∃ D i, s.decodeAt s.pc.toNat = .ok D ∧ D.instr = some i ∧
        step s = exec i s) := by
  unfold step State.cycle
  by_cases hh : s.halted = true
  · exact .inl ⟨hh, by rw [if_pos hh]; rfl⟩
  · rw [if_neg hh]
    have hf : s.halted = false := by simpa using hh
    refine .inr ?_
    cases hd : s.decodeAt s.pc.toNat with
    | error e => exact .inl ⟨hf, e, rfl, rfl⟩
    | ok D =>
      refine .inr ?_
      cases hi : D.instr with
      | none => exact .inl ⟨hf, D, rfl, hi, by simp [State.runRecord, hi, State.raise]⟩
      | some i => exact .inr ⟨hf, D, i, rfl, hi, by simp [State.runRecord, hi]⟩

/-- Every next state of a step: the halted one, or an `InstrEnd` of a running machine. -/
theorem step_next {s t : State} (h : step s = .next t) :
    (s.halted = true ∧ t = { s with status := .alreadyHalted }) ∨
      (s.halted = false ∧ InstrEnd s t) := by
  rcases step_cases s with ⟨hh, e⟩ | ⟨hh, e, -, he⟩ | ⟨hh, D, -, -, e⟩ | ⟨hh, D, i, -, -, e⟩
  · rw [h] at e; cases e; exact .inl ⟨hh, rfl⟩
  · rw [h] at he; cases e <;> cases he
  · rw [h] at e; cases e; exact .inr ⟨hh, .fault _ (by decide)⟩
  · have := exec_endsWell i s
    rw [← e, h] at this
    exact .inr ⟨hh, this⟩

/-! Fetch. -/

/-- The bytes fetched where no window lies are the RAM bytes. -/
theorem fetchBytes_ram (s : State) (a n : Nat)
    (h : ∀ k, k < n → resolve s.devmap (a + k) = .ram) :
    s.fetchBytes a n = some (s.ram.readBytes a n) := by
  induction n generalizing a with
  | zero => rfl
  | succ n ih =>
    have h0 : resolve s.devmap a = .ram := h 0 (by omega)
    have h1 : s.fetchBytes (a + 1) n = some (s.ram.readBytes (a + 1) n) := by
      apply ih
      intro k hk
      have := h (k + 1) (by omega)
      rwa [show a + 1 + k = a + (k + 1) by omega]
    simp [State.fetchBytes, State.fetchByte, h0, h1, Memory.readBytes]

end Sys2Proof.Machine
end

