-- ==== Sys2Proof/Laws/Exec.lean ====
section
/-! SUPPORT. Each instruction on registers that exist, and the stack's two halves in each region: one equation each, which
later proofs cite instead of unfolding a meaning. -/

namespace Sys2Proof.Machine

/-! Instructions on registers that exist. -/

theorem exec_loadi (s : State) (d : Fin 8) (imm : Word) :
    exec (.loadi (regField d) imm) s = ((s.setReg d imm).setZ imm).advance 6 :=
  withReg_regField d s _

theorem exec_load (s : State) (d b : Fin 8) (off : Half) :
    exec (.load (regField d) (regField b) off) s =
      match s.memRead (s.effAddr b off) with
      | .error e => .fault e
      | .ok (v, s') => ((s'.setReg d v).setZ v).advance 5 :=
  (withReg_regField d s _).trans (withReg_regField b s _)

theorem exec_store (s : State) (b r : Fin 8) (off : Half) :
    exec (.store (regField b) (regField r) off) s =
      match s.memWrite (s.effAddr b off) (s.reg r) with
      | .error e => .fault e
      | .ok s' => s'.advance 5 :=
  (withReg_regField b s _).trans (withReg_regField r s _)

theorem aluOp_regs (f : Word → Word → Word) (s : State) (d a b : Fin 8) :
    aluOp f (regField d) (regField a) (regField b) s =
      ((s.setReg d (f (s.reg a) (s.reg b))).setZ (f (s.reg a) (s.reg b))).advance 4 :=
  (withReg_regField d s _).trans ((withReg_regField a s _).trans (withReg_regField b s _))

theorem exec_cmp (s : State) (a b : Fin 8) :
    exec (.cmp (regField a) (regField b)) s = (s.putZ (s.reg a == s.reg b)).advance 3 :=
  (withReg_regField a s _).trans (withReg_regField b s _)

theorem exec_push (s : State) (r : Fin 8) :
    exec (.push (regField r)) s = s.pushWord (s.reg r) (s.pc + 2) :=
  withReg_regField r s _

theorem exec_pop (s : State) (d : Fin 8) :
    exec (.pop (regField d)) s = s.popWord fun v s' => ((s'.setReg d v).setZ v).advance 2 :=
  withReg_regField d s _

theorem exec_call (s : State) (target : Word) :
    exec (.call target) s = s.pushWord (s.pc + 5) target := rfl

theorem exec_ret (s : State) : exec .ret s = s.popWord fun t s' => s'.complete t := rfl

theorem exec_out (s : State) (r : Fin 8) :
    exec (.out (regField r)) s = (s.emit (s.reg r)).advance 2 :=
  withReg_regField r s _

theorem exec_in_value (s : State) (d : Fin 8) {v : Word} {rest : List InputAnswer}
    (h : s.inp = .value v :: rest) :
    exec (.inp (regField d)) s = (({ s with inp := rest }.setReg d v).setZ v).advance 2 := by
  rw [show exec (.inp (regField d)) s = _ from withReg_regField d s _]
  simp only [h]

theorem exec_in_failure (s : State) (d : Fin 8) {rest : List InputAnswer}
    (h : s.inp = .failure :: rest) :
    exec (.inp (regField d)) s = { s with inp := rest }.raise .inputFailure := by
  rw [show exec (.inp (regField d)) s = _ from withReg_regField d s _]
  simp only [h]

theorem exec_in_wait (s : State) (d : Fin 8) (h : s.inp = []) :
    exec (.inp (regField d)) s = s.wait := by
  rw [show exec (.inp (regField d)) s = _ from withReg_regField d s _]
  simp only [h]

/-! The stack's bounds on unbounded integers (00_scope.md R12). -/

theorem sp_sub_four {s : State} (h : 4 ≤ s.sp.toNat) : (s.sp - 4).toNat = s.sp.toNat - 4 := by
  rw [BitVec.toNat_sub_of_le] <;> simp [BitVec.le_def, h]

theorem sp_add_four {s : State} (h : s.sp.toNat + 4 < 2 ^ 32) :
    (s.sp + 4).toNat = s.sp.toNat + 4 := by
  rw [BitVec.toNat_add]
  simp only [BitVec.reduceToNat]
  omega

/-! The stack in each region (44_stack.md R260 to R266). -/

theorem pushWord_overflow {s : State} (v pc : Word) (h : s.sp.toNat < 4) :
    s.pushWord v pc = s.raise .stackOverflow :=
  if_pos h

theorem pushWord_of_memWrite {s s' : State} {v pc : Word} (h : 4 ≤ s.sp.toNat)
    (hw : s.memWrite (s.sp - 4) v = .ok s') :
    s.pushWord v pc = { s' with sp := s.sp - 4 }.complete pc := by
  have : ¬ s.sp.toNat < 4 := by omega
  unfold State.pushWord
  rw [if_neg this, hw]

theorem pushWord_of_error {s : State} {v pc : Word} {e : Fault} (h : 4 ≤ s.sp.toNat)
    (hw : s.memWrite (s.sp - 4) v = .error e) : s.pushWord v pc = .fault e := by
  have : ¬ s.sp.toNat < 4 := by omega
  unfold State.pushWord
  rw [if_neg this, hw]

theorem pushWord_ram {s : State} {v pc : Word} (h : 4 ≤ s.sp.toNat)
    (h2 : s.sp.toNat ≤ s.cfg.memSize) (hr : resolve s.devmap (s.sp.toNat - 4) = .ram) :
    s.pushWord v pc =
      { s with ram := s.ram.writeWord (s.sp.toNat - 4) v, sp := s.sp - 4 }.complete pc := by
  rw [pushWord_of_memWrite h (memWrite_ram (by rwa [sp_sub_four h]) (by rw [sp_sub_four h]; omega)),
    sp_sub_four h]

theorem popWord_underflow {s : State} (k : Word → State → StepResult)
    (h : s.cfg.memSize < s.sp.toNat + 4) : s.popWord k = s.raise .stackUnderflow :=
  if_pos h

theorem popWord_of_memRead {s s' : State} {v : Word} (k : Word → State → StepResult)
    (h : s.sp.toNat + 4 ≤ s.cfg.memSize) (hr : s.memRead s.sp = .ok (v, s')) :
    s.popWord k = k v { s' with sp := s.sp + 4 } := by
  have : ¬ s.sp.toNat + 4 > s.cfg.memSize := by omega
  unfold State.popWord
  rw [if_neg this, hr]

theorem popWord_of_error {s : State} {e : Fault} (k : Word → State → StepResult)
    (h : s.sp.toNat + 4 ≤ s.cfg.memSize) (hr : s.memRead s.sp = .error e) :
    s.popWord k = .fault e := by
  have : ¬ s.sp.toNat + 4 > s.cfg.memSize := by omega
  unfold State.popWord
  rw [if_neg this, hr]

theorem popWord_ram {s : State} (k : Word → State → StepResult)
    (h : s.sp.toNat + 4 ≤ s.cfg.memSize) (hr : resolve s.devmap s.sp.toNat = .ram) :
    s.popWord k = k (s.ram.readWord s.sp.toNat) { s with sp := s.sp + 4 } :=
  popWord_of_memRead k h (memRead_ram hr h)

/-! A device's answers (20_memory.md R77). -/

theorem memRead_device_value {s : State} {addr v : Word} {dev off : Nat}
    (hr : resolve s.devmap addr.toNat = .device dev off)
    (hv : Config.deviceRead s.devLog dev off = .value v) :
    s.memRead addr = .ok (v, { s with devLog := s.devLog ++ [.read dev off v] }) := by
  simp only [State.memRead, hr, hv]

theorem memRead_device_failure {s : State} {addr : Word} {dev off : Nat}
    (hr : resolve s.devmap addr.toNat = .device dev off)
    (hv : Config.deviceRead s.devLog dev off = .failure) : s.memRead addr = .error .deviceFault := by
  simp only [State.memRead, hr, hv]

theorem memWrite_device_accepts {s : State} {addr v : Word} {dev off : Nat}
    (hr : resolve s.devmap addr.toNat = .device dev off)
    (hv : Config.deviceAccepts s.devLog dev off v = true) :
    s.memWrite addr v = .ok { s with devLog := s.devLog ++ [.write dev off v] } := by
  simp [State.memWrite, hr, hv]

theorem memWrite_device_fails {s : State} {addr v : Word} {dev off : Nat}
    (hr : resolve s.devmap addr.toNat = .device dev off)
    (hv : Config.deviceAccepts s.devLog dev off v = false) :
    s.memWrite addr v = .error .deviceFault := by
  simp [State.memWrite, hr, hv]

/-! Fetch. -/

/-- A memory that reads as a byte string over its length reads back as it. -/
theorem readBytes_eq {m : Memory} {a n : Nat} {l : List Byte} (hl : l.length = n)
    (h : ∀ k, k < n → m.read (a + k) = l.getD k 0) : m.readBytes a n = l := by
  apply List.ext_getElem (by simp [hl])
  intro k h1 h2
  have hk : k < n := by simpa using h1
  have := getD_readBytes m a n k hk
  rw [h k hk, List.getD_eq_getElem _ _ h1, List.getD_eq_getElem _ _ h2] at this
  exact this

/-- No byte is fetched from a device window (20_memory.md R84). -/
theorem fetchByte_device {s : State} {a : Nat} (h : resolve s.devmap a ≠ .ram) :
    s.fetchByte a = none := by
  unfold State.fetchByte
  split
  · contradiction
  · rfl

end Sys2Proof.Machine
end

