-- ==== Sys2Proof/Laws/Host.lean ====
section
/-! SUPPORT. What the host's operations and the run loop can do, said once, and the forms of the breakpoint set and of the
device map they keep. -/

namespace Sys2Proof.Machine

/-! The invariant. -/

theorem inv_iff {s : State} :
    s.inv = true ↔ configOk s.cfg = true ∧ s.ram.wf = true ∧ s.ram.below s.cfg.memSize = true ∧
      devmapOk s.devmap = true ∧ bpOk s.bp = true ∧ bpWithinMax s = true ∧ statusOk s = true := by
  simp [State.inv, and_assoc]

/-- The memory of the state after reset is in canonical form. -/
theorem reset_ram_wf : State.reset.ram.wf = true := rfl

/-! The device map (20_memory.md R72, R80). -/

/-- In a legal device map at most one window contains an address, so it is the one found. -/
theorem find_window {devmap : List DeviceMapping} (h : devmapOk devmap = true) {m : DeviceMapping}
    {a : Nat} (hm : m ∈ devmap) (hc : m.contains a = true) :
    devmap.find? (fun m => m.contains a) = some m := by
  induction devmap with
  | nil => simp at hm
  | cons n rest ih =>
    simp only [devmapOk, Bool.and_eq_true, List.all_eq_true, decide_eq_true_eq,
      Bool.not_eq_true'] at h
    obtain ⟨⟨⟨-, -⟩, h3⟩, h4⟩ := h
    rcases List.mem_cons.mp hm with rfl | hm
    · simp [hc]
    · have ho := h3 m hm
      have hn : n.contains a = false := by
        cases hn : n.contains a with
        | false => rfl
        | true =>
          simp [DeviceMapping.contains, DeviceMapping.overlaps] at *
          omega
      rw [List.find?_cons_of_neg (by simp [hn])]
      exact ih h4 hm

theorem devmapOk_append {l : List DeviceMapping} {m : DeviceMapping} (h : devmapOk l = true)
    (ho : ∀ n ∈ l, n.overlaps m = false) (h1 : 0 < m.size) (h2 : m.base.toNat + m.size ≤ 2 ^ 32) :
    devmapOk (l ++ [m]) = true := by
  induction l with
  | nil => simp [devmapOk, h1]; omega
  | cons n l ih =>
    simp only [devmapOk, Bool.and_eq_true, List.all_eq_true, decide_eq_true_eq, Bool.not_eq_true',
      List.cons_append] at *
    obtain ⟨⟨⟨a, b⟩, c⟩, d⟩ := h
    refine ⟨⟨⟨a, b⟩, ?_⟩, ih d fun k hk => ho k (List.mem_cons_of_mem _ hk)⟩
    intro k hk
    rcases List.mem_append.mp hk with hk | hk
    · exact c k hk
    · simp at hk
      subst hk
      exact ho n (by simp)

/-! The breakpoint set (10_state.md R51). -/

theorem bpOk_cons {a : Word} {l : List Word} :
    bpOk (a :: l) = true ↔ (∀ b ∈ l, a.toNat < b.toNat) ∧ bpOk l = true := by
  simp [bpOk]

theorem mem_insertAddr {a b : Word} {l : List Word} : b ∈ insertAddr a l ↔ b = a ∨ b ∈ l := by
  induction l with
  | nil => simp [insertAddr]
  | cons c l ih =>
    unfold insertAddr
    split
    · simp
    · split
      · rename_i h
        subst h
        simp
      · simp [ih]
        tauto

theorem bpOk_insertAddr {a : Word} {l : List Word} (h : bpOk l = true) :
    bpOk (insertAddr a l) = true := by
  induction l with
  | nil => rfl
  | cons c l ih =>
    obtain ⟨h1, h2⟩ := bpOk_cons.mp h
    unfold insertAddr
    split
    · rename_i hlt
      refine bpOk_cons.mpr ⟨?_, h⟩
      intro b hb
      rcases List.mem_cons.mp hb with rfl | hb
      · exact hlt
      · exact lt_trans hlt (h1 b hb)
    · split
      · exact h
      · rename_i h3 h4
        refine bpOk_cons.mpr ⟨?_, ih h2⟩
        intro b hb
        rcases mem_insertAddr.mp hb with rfl | hb
        · have : c.toNat ≠ b.toNat := fun e => h4 (BitVec.eq_of_toNat_eq e).symm
          omega
        · exact h1 b hb

theorem length_insertAddr (a : Word) (l : List Word) :
    (insertAddr a l).length ≤ l.length + 1 := by
  induction l with
  | nil => simp [insertAddr]
  | cons c l ih =>
    unfold insertAddr
    split
    · simp
    · split <;> simp [ih]

theorem bpOk_filter {p : Word → Bool} {l : List Word} (h : bpOk l = true) :
    bpOk (l.filter p) = true := by
  induction l with
  | nil => rfl
  | cons c l ih =>
    obtain ⟨h1, h2⟩ := bpOk_cons.mp h
    rw [List.filter_cons]
    split
    · exact bpOk_cons.mpr ⟨fun b hb => h1 b (List.mem_of_mem_filter hb), ih h2⟩
    · exact ih h2

/-! Program loading and snapshots (70_reset_and_hazards.md R356, R372). -/

theorem loadedState_eq (payload : List Byte) (entry : Word) (s : State) :
    loadedState payload entry s =
      { powerOn { s with ram := Memory.ofBytes 0 payload } with pc := entry } := by
  unfold loadedState
  dsimp only
  split
  · rfl
  · rename_i h
    have : entry = 0 := by simpa using h
    subst this
    rfl

/-- All a successful program load is. -/
theorem loadProgramBytes_ok {bytes : List Byte} {s t : State}
    (h : loadProgramBytes bytes s = .ok t) :
    ∃ payload entry, parseProgram s.cfg.verify bytes = .ok (payload, entry) ∧
      payload.length ≤ s.cfg.memSize ∧ t = loadedState payload entry s := by
  unfold loadProgramBytes at h
  split at h
  · cases h
  · rename_i p e hp
    split at h
    · cases h
    · cases h
      exact ⟨p, e, hp, by omega, rfl⟩

/-- A snapshot is accepted exactly when every check of R372 passes. -/
theorem checkSnapshot_eq_none {cfg : Config} {bs : List Byte} :
    checkSnapshot cfg bs = none ↔
      bs.length = 48 + 2 * cfg.snapWordBytes + cfg.memSize ∧ bs.take 4 = snapMagic ∧
        natAt bs 16 cfg.snapWordBytes = 8 ∧
        natAt bs (48 + cfg.snapWordBytes) cfg.snapWordBytes = cfg.memSize := by
  unfold checkSnapshot
  dsimp only
  by_cases h0 : bs.length < 4
  · rw [if_pos h0]; exact ⟨fun h => (by cases h), fun h => by have := h.1; omega⟩
  rw [if_neg h0]
  by_cases h1 : bs.take 4 ≠ snapMagic
  · rw [if_pos h1]; exact ⟨fun h => (by cases h), fun h => absurd h.2.1 h1⟩
  rw [if_neg h1]
  by_cases h2 : bs.length < 16 + cfg.snapWordBytes
  · rw [if_pos h2]; exact ⟨fun h => (by cases h), fun h => by have := h.1; omega⟩
  rw [if_neg h2]
  by_cases h3 : natAt bs 16 cfg.snapWordBytes ≠ 8
  · rw [if_pos h3]; exact ⟨fun h => (by cases h), fun h => absurd h.2.2.1 h3⟩
  rw [if_neg h3]
  by_cases h4 : bs.length < 48 + 2 * cfg.snapWordBytes
  · rw [if_pos h4]; exact ⟨fun h => (by cases h), fun h => by have := h.1; omega⟩
  rw [if_neg h4]
  by_cases h5 : natAt bs (48 + cfg.snapWordBytes) cfg.snapWordBytes ≠ cfg.memSize
  · rw [if_pos h5]; exact ⟨fun h => (by cases h), fun h => absurd h.2.2.2 h5⟩
  rw [if_neg h5]
  by_cases h6 : bs.length < 48 + 2 * cfg.snapWordBytes + cfg.memSize
  · rw [if_pos h6]; exact ⟨fun h => (by cases h), fun h => by have := h.1; omega⟩
  rw [if_neg h6]
  by_cases h7 : bs.length > 48 + 2 * cfg.snapWordBytes + cfg.memSize
  · rw [if_pos h7]; exact ⟨fun h => (by cases h), fun h => by have := h.1; omega⟩
  rw [if_neg h7]
  exact ⟨fun _ => ⟨by omega, not_not.mp h1, not_not.mp h3, not_not.mp h5⟩, fun _ => rfl⟩

/-! The run loop (40_cycle.md R181, R186). -/

/-- A structural error changes at most the device log. -/
theorem afterFault_eq (s : State) (f : Fault) :
    s.afterFault f = { s with devLog := (s.afterFault f).devLog } := by
  cases f <;> rfl

/-- What every step, every aborted step and the refusal mark keep, a run keeps. -/
theorem runLoop_keeps (P : State → Prop) (hstep : ∀ s t, P s → step s = .next t → P t)
    (hfault : ∀ s f, P s → P (s.afterFault f)) (hmark : ∀ s, P s → P s.markRefused)
    (bpMode : Bool) (limit : Option Nat) (turns count : Nat) (s : State) (h : P s) :
    P (runLoop bpMode limit turns count s).state := by
  induction turns generalizing count s with
  | zero => exact h
  | succ n ih =>
    unfold runLoop
    split
    · exact h
    · split
      · rename_i t ht
        split
        · exact hstep _ _ h ht
        · exact ih _ _ (hstep _ _ h ht)
      · exact hfault _ _ h
      · exact hmark _ h

/-- In breakpoint mode no step is taken from a running state with PC in the set (R186). -/
theorem stopBefore_at_breakpoint {limit : Option Nat} {count : Nat} {s : State}
    (hh : s.halted = false) (hp : s.pc ∈ s.bp) : stopBefore true limit count s ≠ none := by
  unfold stopBefore
  split_ifs <;> simp_all [State.atBreakpoint]

/-- A run call that has returned is the same however much further it is followed. -/
theorem runLoop_returned {bpMode : Bool} {limit : Option Nat} {turns count : Nat} {s : State}
    (h : (runLoop bpMode limit turns count s).stop ≠ none) (more : Nat) :
    runLoop bpMode limit (turns + more) count s = runLoop bpMode limit turns count s := by
  induction turns generalizing count s with
  | zero =>
    obtain ⟨r, hr⟩ := Option.ne_none_iff_exists'.mp h
    have hr : stopBefore bpMode limit count s = some r := hr
    cases more <;> simp [runLoop, hr]
  | succ n ih =>
    rw [show n + 1 + more = n + more + 1 by omega]
    unfold runLoop at h ⊢
    cases hs : stopBefore bpMode limit count s with
    | some r => rfl
    | none =>
      cases ht : step s with
      | next t =>
        simp only [hs, ht] at h ⊢
        split at h
        · exact absurd rfl h
        · rename_i hw
          rw [if_neg hw, if_neg hw, ih h]
      | fault f => rfl
      | refused r => rfl

/-! The host interface (10_state.md R60). -/

/-- The host sees nothing of a run call's step count (10_state.md R52 b). -/
@[simp] theorem ofRun_steps (r : RunResult) (n : Nat) : ofRun { r with steps := n } = ofRun r := rfl

/-- What every step, the refusal mark and every operation that writes state keep, the host interface keeps. -/
theorem host_keeps (P : State → Prop) (hstep : ∀ s t, P s → step s = .next t → P t)
    (hfault : ∀ s f, P s → P (s.afterFault f)) (hmark : ∀ s, P s → P s.markRefused)
    (hpow : ∀ s, P s → P (powerOn s))
    (hload : ∀ s t b, P s → loadProgramBytes b s = .ok t → P t)
    (hset : ∀ s t i v, P s → setReg i v s = .ok t → P t)
    (hwrite : ∀ s t a bs, P s → hostMemWrite a bs s = .ok t → P t)
    (hadd : ∀ s t a, P s → addBreakpoint a s = .ok t → P t)
    (hrem : ∀ s a, P s → P (removeBreakpoint a s))
    (hsnap : ∀ s t b, P s → loadSnapshot b s = .ok t → P t)
    (hdev : ∀ s t m, P s → registerDevice m s = .ok t → P t)
    (turns : Nat) (op : HostOp) (s t : State) (h : P s) :
    (∀ r, host turns op s = .returned r t → P t) ∧ (host turns op s = .pending t → P t) := by
  have hrun : ∀ bm lim, P (runLoop bm lim turns 0 s).state :=
    fun bm lim => runLoop_keeps P hstep hfault hmark _ _ _ _ _ h
  have ofrun : ∀ r : RunResult, P r.state →
      (∀ q, ofRun r = .returned q t → P t) ∧ (ofRun r = .pending t → P t) := by
    intro r hr
    unfold ofRun
    split
    · exact ⟨fun q e => (by cases e; exact hr), fun e => by cases e⟩
    · exact ⟨fun q e => (by cases e), fun e => by cases e; exact hr⟩
  have ofex : ∀ r : Except HostError State, (∀ t, r = .ok t → P t) →
      (∀ q, opResult r = .returned q t → P t) ∧ (opResult r = .pending t → P t) := by
    intro r hr
    unfold opResult
    split
    · exact ⟨fun q e => (by cases e; exact hr _ rfl), fun e => by cases e⟩
    · exact ⟨fun q e => (by cases e), fun e => by cases e⟩
  have hret : ∀ r : Reply, (∀ q, HostOutcome.returned r s = .returned q t → P t) ∧
      (HostOutcome.returned r s = .pending t → P t) :=
    fun r => ⟨fun q e => (by cases e; exact h), fun e => by cases e⟩
  have hfail : ∀ r, (∀ q, HostOutcome.failed r = .returned q t → P t) ∧
      (HostOutcome.failed r = .pending t → P t) :=
    fun r => ⟨fun q e => (by cases e), fun e => by cases e⟩
  unfold host
  split
  · exact ⟨fun r e => (by cases e), fun e => by cases e⟩
  · cases op with
    | powerOn => exact ⟨fun r e => (by cases e; exact hpow _ h), fun e => by cases e⟩
    | loadProgramBytes b => exact ofex _ fun t ht => hload _ _ _ h ht
    | runUntilHalt =>
      apply ofrun
      unfold runUntilHalt
      split <;> exact hrun _ _
    | runSteps n =>
      apply ofrun
      unfold runSteps
      split <;> exact hrun _ _
    | cpuStep =>
      show (∀ r, cpuStep s = _ → _) ∧ (cpuStep s = _ → _)
      unfold cpuStep
      split
      · rename_i u hu
        split
        · exact ⟨fun r e => (by cases e; exact hstep _ _ h hu), fun e => by cases e⟩
        · exact ⟨fun r e => (by cases e), fun e => by cases e; exact hstep _ _ h hu⟩
      · exact ⟨fun r e => (by cases e; exact hfault _ _ h), fun e => by cases e⟩
      · exact ⟨fun r e => (by cases e; exact hmark _ h), fun e => by cases e⟩
    | cpuRun n => exact ofrun _ (hrun _ _)
    | getPC | getSP | getFlags | isHalted | breakpoints | saveSnapshot => exact hret _
    | getReg i =>
      unfold hostOp
      dsimp only
      split
      · exact hret _
      · exact hfail _
    | setReg i v => exact ofex _ fun t ht => hset _ _ _ _ h ht
    | memRead a n =>
      unfold hostOp
      dsimp only
      split
      · exact hret _
      · exact hfail _
    | memWrite a bs => exact ofex _ fun t ht => hwrite _ _ _ _ h ht
    | addBreakpoint a => exact ofex _ fun t ht => hadd _ _ _ h ht
    | removeBreakpoint a => exact ⟨fun r e => (by cases e; exact hrem _ _ h), fun e => by cases e⟩
    | loadSnapshot b => exact ofex _ fun t ht => hsnap _ _ _ h ht
    | registerDevice m => exact ofex _ fun t ht => hdev _ _ _ h ht
    | disassemble a =>
      unfold hostOp
      dsimp only
      split
      · exact hret _
      · exact hret _

end Sys2Proof.Machine
end

