-- ==== Sys2Proof/Laws/Image.lean ====
section
/-! SUPPORT. The checksum, the v2 header and the fields of a snapshot: what each reads back as. -/

namespace Sys2Proof.Machine

/-! Adler-32 (70_reset_and_hazards.md R364). -/

/-- The first running sum is the plain sum of the bytes modulo 65521. -/
theorem adlerSums_fst (a b : Nat) (bs : List Byte) (ha : a < 65521) :
    (adlerSums a b bs).1 = (a + (bs.map (·.toNat)).sum) % 65521 := by
  induction bs generalizing a b with
  | nil => simp [adlerSums, Nat.mod_eq_of_lt ha]
  | cons p ps ih =>
    rw [adlerSums, ih _ _ (Nat.mod_lt _ (by decide))]
    simp [Nat.add_assoc]

/-- The low half of the checksum is the first running sum. -/
theorem adler32_low (p : List Byte) :
    (adler32 p).toNat % 65536 = (1 + (p.map (·.toNat)).sum) % 65521 := by
  have h := adlerSums_fst 1 0 p (by decide)
  have hl : (1 + (p.map (·.toNat)).sum) % 65521 < 65521 := Nat.mod_lt _ (by decide)
  unfold adler32
  dsimp only
  rw [h, BitVec.toNat_or, show (65536 : Nat) = 2 ^ 16 from rfl, Nat.or_mod_two_pow]
  have h0 : BitVec.toNat (BitVec.ofNat 32 (adlerSums 1 0 p).2 <<< 16) % 2 ^ 16 = 0 := by
    simp [BitVec.toNat_shiftLeft, Nat.shiftLeft_eq]
  rw [h0, Nat.zero_or]
  simp
  omega

/-- The sum of the bytes after one of them is replaced. -/
theorem sum_set (p : List Byte) (k : Nat) (b : Byte) (hk : k < p.length) :
    ((p.set k b).map (·.toNat)).sum + (p.getD k 0).toNat = (p.map (·.toNat)).sum + b.toNat := by
  induction p generalizing k with
  | nil => simp at hk
  | cons q qs ih =>
    cases k with
    | zero => simp; omega
    | succ k =>
      have := ih k (by simpa using hk)
      simp at this ⊢
      omega

/-! Words inside byte strings. -/

theorem wordAt_mid (a b : List Byte) (v : Word) (k : Nat) (h : a.length = k) :
    wordAt (a ++ (wordBytes v ++ b)) k = v := by
  subst h
  unfold wordAt
  simp [List.getD, wordBytes]

theorem wordAt_flatMap (pre post : List Byte) (l : List Word) (i n : Nat) (h : i < l.length)
    (hn : pre.length = n) : wordAt (pre ++ (l.flatMap wordBytes ++ post)) (n + 4 * i) = l[i] := by
  induction l generalizing pre i n with
  | nil => simp at h
  | cons v l ih =>
    cases i with
    | zero =>
      rw [List.flatMap_cons, List.append_assoc]
      exact wordAt_mid _ _ _ _ hn
    | succ i =>
      have := ih (pre ++ wordBytes v) i (n + 4) (by simpa using h) (by simp [hn])
      rw [List.flatMap_cons, List.append_assoc, ← List.append_assoc,
        show n + 4 * (i + 1) = n + 4 + 4 * i by omega]
      simpa using this

/-! A v2 header (R360, R361). -/

theorem parseProgram_v2 (verify : Bool) (entry len sum : Word) (p : List Byte) :
    parseProgram verify
        (headerMagic ++ wordBytes 2 ++ wordBytes entry ++ wordBytes len ++ wordBytes sum ++ p) =
      if verify = true then
        (if len.toNat ≠ p.length then .error .headerSizeMismatch
        else if sum ≠ adler32 p then .error .headerChecksumMismatch
        else .ok (p, entry))
      else .ok (p, entry) := by
  set bs := headerMagic ++ wordBytes 2 ++ wordBytes entry ++ wordBytes len ++ wordBytes sum ++ p
    with hbs
  have hl : bs.length = 20 + p.length := by simp [hbs, headerMagic]; omega
  have h4 : bs.take 4 = headerMagic := by simp [hbs, headerMagic]
  have hv : wordAt bs 4 = 2 := by simp [hbs, headerMagic, wordBytes, wordAt, List.getD]
  have he : wordAt bs 8 = entry := by simp [hbs, headerMagic, wordBytes, wordAt, List.getD]
  have hn : wordAt bs 12 = len := by simp [hbs, headerMagic, wordBytes, wordAt, List.getD]
  have hs : wordAt bs 16 = sum := by simp [hbs, headerMagic, wordBytes, wordAt, List.getD]
  have hd : bs.drop 20 = p := by simp [hbs, headerMagic, wordBytes]
  clear_value bs
  unfold parseProgram
  rw [if_neg (by rw [h4]; simp; omega), if_neg (by omega), hv, show headerSize 2 = some 20 from rfl]
  simp only
  rw [if_neg (by omega), hd, he]
  cases verify with
  | false => simp
  | true =>
    by_cases h1 : len.toNat = p.length <;> by_cases h2 : sum = adler32 p <;>
      simp [verifyHeader, hn, hs, h1, h2]

/-! The fields of a snapshot (R370). -/

@[simp] theorem length_leBytes (v w : Nat) : (leBytes v w).length = w := by
  induction w generalizing v with
  | zero => rfl
  | succ n ih => simp [leBytes, ih]

theorem leNat_leBytes (v w : Nat) (h : v < 256 ^ w) : leNat (leBytes v w) = v := by
  induction w generalizing v with
  | zero =>
    simp at h
    subst h
    rfl
  | succ n ih =>
    simp only [leBytes, leNat]
    rw [ih (v / 256) (by rw [pow_succ] at h; omega)]
    simp
    omega

/-- RAM read out whole and built again is RAM. -/
theorem ofBytes_readBytes {m : Memory} {n : Nat} (h : m.wf = true) (hb : m.below n = true) :
    Memory.ofBytes 0 (m.readBytes 0 n) = m := by
  apply eq_of_read_eq (wf_ofBytes _ _) h
  intro a
  rw [read_ofBytes]
  split
  · rename_i ha
    simp at ha
    rw [Nat.sub_zero, getD_readBytes _ _ _ _ ha]
    simp
  · rename_i ha
    simp at ha
    exact (read_of_below hb ha).symm

end Sys2Proof.Machine
end

