-- ==== Sys2Proof/Laws/PerInstr.lean ====
section
/-! SUPPORT. The families of statements made per instruction. FieldsReadBack: the bytes of an encoding, whatever follows
them, are read back as the instruction, and there are as many as its size (30_encoding.md R110, R111). -/

namespace Sys2Proof.Laws.FieldsReadBack

/-- What the family says of an instruction. -/
def Statement (i : Instr) : Prop :=
  ∀ (m : OpcodeMap) (rest : List Byte),
    instrOfFields i.mnemonic (readRecord i.mnemonic (encode m i ++ rest)) = i ∧
      (encode m i).length = i.size

theorem all (i : Instr) : Statement i :=
  fun m rest => ⟨instrOfFields_encode m i rest, length_encode m i⟩

theorem halt : Statement (.halt) := all _

theorem ret : Statement (.ret) := all _

theorem loadi (d : Byte) (imm : Word) : Statement (.loadi d imm) := all _

theorem load (d : Byte) (b : Byte) (off : Half) : Statement (.load d b off) := all _

theorem store (b : Byte) (s : Byte) (off : Half) : Statement (.store b s off) := all _

theorem add (d : Byte) (a : Byte) (b : Byte) : Statement (.add d a b) := all _

theorem sub (d : Byte) (a : Byte) (b : Byte) : Statement (.sub d a b) := all _

theorem and (d : Byte) (a : Byte) (b : Byte) : Statement (.and d a b) := all _

theorem or (d : Byte) (a : Byte) (b : Byte) : Statement (.or d a b) := all _

theorem xor (d : Byte) (a : Byte) (b : Byte) : Statement (.xor d a b) := all _

theorem cmp (a : Byte) (b : Byte) : Statement (.cmp a b) := all _

theorem push (s : Byte) : Statement (.push s) := all _

theorem pop (d : Byte) : Statement (.pop d) := all _

theorem out (s : Byte) : Statement (.out s) := all _

theorem inp (d : Byte) : Statement (.inp d) := all _

theorem jmp (t : Word) : Statement (.jmp t) := all _

theorem jz (t : Word) : Statement (.jz t) := all _

theorem jnz (t : Word) : Statement (.jnz t) := all _

theorem call (t : Word) : Statement (.call t) := all _

end Sys2Proof.Laws.FieldsReadBack
end

