-- ==== Sys2Proof/Laws/Text.lean ====
section
/-! SUPPORT. What the disassembler writes and what the assembler reads, function by function (30_encoding.md R141
to R146, R156). -/

namespace Sys2Proof.Machine

/-! Decimal numbers. -/

/-- A digit's value, and that it is a character of a token. -/
theorem digitChar_spec (n : Nat) :
    digitValue 10 (digitChar n) = some (n % 10) ∧ isDelimiter (digitChar n) = false ∧
      digitChar n ≠ '\n' ∧ digitChar n ≠ ';' ∧ digitChar n ≠ '#' := by
  have h : n % 10 < 10 := Nat.mod_lt _ (by decide)
  unfold digitChar
  revert h
  generalize n % 10 = k
  intro h
  interval_cases k <;> decide

/-- A character that can stand inside a token: no delimiter, no line end, no comment mark. -/
def TokenChar (c : Char) : Prop :=
  isDelimiter c = false ∧ c ≠ '\n' ∧ c ≠ ';' ∧ c ≠ '#'

/-- A non-empty text of token characters. -/
def IsToken (t : List Char) : Prop :=
  t ≠ [] ∧ ∀ c ∈ t, TokenChar c

theorem digitsFrom_decimalDigits (k n : Nat) (acc : List Char) (h : n < 10 ^ (k + 1)) :
    digitsFrom 10 0 (decimalDigits (k + 1) n acc) = digitsFrom 10 n acc := by
  induction k generalizing n acc with
  | zero =>
    have h0 : n / 10 = 0 := by omega
    have h1 : n % 10 = n := by omega
    simp [decimalDigits, h0, digitsFrom, (digitChar_spec n).1, h1]
  | succ k ih =>
    unfold decimalDigits
    split
    · rename_i h0
      have h1 : n % 10 = n := by omega
      simp [digitsFrom, (digitChar_spec n).1, h1]
    · rw [ih _ _ (by rw [pow_succ] at h; omega)]
      simp only [digitsFrom, (digitChar_spec n).1]
      rw [show n / 10 * 10 + n % 10 = n by omega]

theorem decimalDigits_tokenChar (k n : Nat) (acc : List Char) (h : ∀ c ∈ acc, TokenChar c) :
    ∀ c ∈ decimalDigits k n acc, TokenChar c := by
  have hd : ∀ n, TokenChar (digitChar n) := fun n => (digitChar_spec n).2
  induction k generalizing n acc with
  | zero => exact h
  | succ k ih =>
    unfold decimalDigits
    have : ∀ c ∈ digitChar n :: acc, TokenChar c := by
      intro c hc
      rcases List.mem_cons.mp hc with rfl | hc
      · exact hd n
      · exact h c hc
    split
    · exact this
    · exact ih _ _ this

theorem decimalDigits_ne_nil (k n : Nat) (acc : List Char) : decimalDigits (k + 1) n acc ≠ [] := by
  induction k generalizing n acc with
  | zero => unfold decimalDigits; split <;> simp [decimalDigits]
  | succ k ih => unfold decimalDigits; split; simp; exact ih _ _

theorem digitsValue_decimal (n : Nat) (h : n < 2 ^ 32) : digitsValue 10 (decimal n) = some n := by
  have := digitsFrom_decimalDigits 9 n [] (by omega)
  unfold decimal
  have hne := decimalDigits_ne_nil 9 n []
  unfold digitsValue
  split
  · contradiction
  · simpa [digitsFrom] using this

/-! tokens -/

theorem splitPieces_token (l : List Char) (h : ∀ c ∈ l, TokenChar c) : splitPieces l = [l] := by
  induction l with
  | nil => rfl
  | cons c l ih =>
    have hc := h c (by simp)
    rw [splitPieces, ih fun c hc => h c (by simp [hc])]
    simp [hc.1]

theorem splitPieces_delimiter (l : List Char) (d : Char) (r : List Char)
    (h : ∀ c ∈ l, TokenChar c) (hd : isDelimiter d = true) :
    splitPieces (l ++ d :: r) = l :: splitPieces r := by
  induction l with
  | nil => simp [splitPieces, hd]
  | cons c l ih =>
    have hc := h c (by simp)
    rw [List.cons_append, splitPieces, ih fun c hc => h c (by simp [hc])]
    simp [hc.1]

theorem tokensOf_delimiter (l : List Char) (d : Char) (r : List Char) (h : ∀ c ∈ l, TokenChar c)
    (hl : l ≠ []) (hd : isDelimiter d = true) : tokensOf (l ++ d :: r) = l :: tokensOf r := by
  unfold tokensOf
  rw [splitPieces_delimiter l d r h hd]
  simp [hl]

theorem tokensOf_skip (d : Char) (r : List Char) (hd : isDelimiter d = true) :
    tokensOf (d :: r) = tokensOf r := by
  unfold tokensOf
  rw [show d :: r = [] ++ d :: r from rfl, splitPieces_delimiter [] d r (by simp) hd]
  simp

theorem tokensOf_token (l : List Char) (h : ∀ c ∈ l, TokenChar c) (hl : l ≠ []) :
    tokensOf l = [l] := by
  unfold tokensOf
  rw [splitPieces_token l h]
  simp [hl]

theorem tokensOf_joinOperands (ts : List (List Char)) (h : ∀ t ∈ ts, IsToken t) :
    tokensOf (joinOperands ts) = ts := by
  induction ts with
  | nil => rfl
  | cons t ts ih =>
    have ht := h t (by simp)
    cases ts with
    | nil => rw [joinOperands, tokensOf_skip _ _ (by decide), tokensOf_token _ ht.2 ht.1]
    | cons u us =>
      rw [joinOperands, List.cons_append, tokensOf_skip _ _ (by decide),
        tokensOf_delimiter _ _ _ ht.2 ht.1 (by decide), ih fun t ht => h t (by simp [ht])]
      simp

theorem tokensOf_line (m : List Char) (hm : ∀ c ∈ m, TokenChar c) (hn : m ≠ [])
    (ts : List (List Char)) (h : ∀ t ∈ ts, IsToken t) :
    tokensOf (m ++ joinOperands ts) = m :: ts := by
  have := tokensOf_joinOperands ts h
  cases ts with
  | nil => simp [joinOperands, tokensOf_token m hm hn]
  | cons t ts =>
    cases ts with
    | nil => 
      rw [joinOperands, tokensOf_skip _ _ (by decide)] at this
      rw [joinOperands, tokensOf_delimiter _ _ _ hm hn (by decide), this]
    | cons u us => 
      rw [joinOperands, List.cons_append, tokensOf_skip _ _ (by decide)] at this
      · rw [joinOperands, List.cons_append, tokensOf_delimiter _ _ _ hm hn (by decide), this]
        simp
      · simp

/-! lines -/

theorem splitLines_single (l : List Char) (h : ∀ c ∈ l, c ≠ '\n') : splitLines l = [l] := by
  induction l with
  | nil => rfl
  | cons c l ih =>
    rw [splitLines, ih fun c hc => h c (by simp [hc])]
    simp [h c (by simp)]

theorem stripComment_of_no_mark (l : List Char) (h : ∀ c ∈ l, c ≠ ';' ∧ c ≠ '#') :
    stripComment l = l := by
  unfold stripComment
  induction l with
  | nil => rfl
  | cons c l ih =>
    have := h c (by simp)
    rw [List.takeWhile_cons_of_pos (by simp [this]), ih fun c hc => h c (by simp [hc])]

theorem mem_joinOperands (ts : List (List Char)) (P : Char → Prop) (hs : P ' ') (hc : P ',')
    (h : ∀ t ∈ ts, ∀ c ∈ t, P c) : ∀ c ∈ joinOperands ts, P c := by
  induction ts with
  | nil => simp [joinOperands]
  | cons t ts ih =>
    have ht := h t (by simp)
    cases ts with
    | nil =>
      intro c hc
      rw [joinOperands] at hc
      rcases List.mem_cons.mp hc with rfl | hc
      · exact hs
      · exact ht c hc
    | cons u us =>
      intro c hm
      rw [joinOperands] at hm
      · simp only [List.cons_append, List.mem_cons, List.mem_append] at hm
        rcases hm with rfl | hm | rfl | hm
        · exact hs
        · exact ht c hm
        · exact hc
        · exact ih (fun t ht => h t (by simp [ht])) c hm
      · simp

theorem joinOperands_head (ts : List (List Char)) :
    joinOperands ts = [] ∨ ∃ r, joinOperands ts = ' ' :: r := by
  cases ts with
  | nil => exact .inl rfl
  | cons t ts => cases ts <;> exact .inr ⟨_, rfl⟩

theorem mnemonicText_spec (mn : Mnemonic) :
    (∀ c ∈ mnemonicText mn, TokenChar c ∧ isIdentPart c = true ∧ isSpace c = false) ∧
      mnemonicText mn ≠ [] ∧ mnemonicOf (mnemonicText mn) = some mn := by
  unfold TokenChar
  have h : ∀ mn, (mnemonicText mn).all (fun c => !isDelimiter c && c != '\n' && c != ';' && c != '#' &&
      isIdentPart c && !isSpace c) = true := by
    intro mn
    cases mn <;> rfl
  refine ⟨?_, by cases mn <;> decide, by cases mn <;> rfl⟩
  intro c hc
  have := List.all_eq_true.mp (h mn) c hc
  simp at this
  simp [this]

theorem span_identifier (m r : List Char) (h : ∀ c ∈ m, isIdentPart c = true)
    (hr : r = [] ∨ ∃ q, r = ' ' :: q) :
    (m ++ r).takeWhile isIdentPart = m ∧ (m ++ r).dropWhile isIdentPart = r := by
  induction m with
  | nil =>
    rcases hr with rfl | ⟨q, rfl⟩
    · exact ⟨rfl, rfl⟩
    · exact ⟨rfl, rfl⟩
  | cons c m ih =>
    have hc := h c (by simp)
    have := ih fun c hc => h c (by simp [hc])
    simp [hc, this]

theorem takeLabels_line (n : Nat) (mn : Mnemonic) (ts) :
    takeLabels n (mnemonicText mn ++ joinOperands ts) =
      ([], mnemonicText mn ++ joinOperands ts) := by
  cases n with
  | zero => rfl
  | succ n =>
    have hm := mnemonicText_spec mn
    have h1 : (mnemonicText mn ++ joinOperands ts).dropWhile isSpace =
        mnemonicText mn ++ joinOperands ts := by
      cases h : mnemonicText mn with
      | nil => exact absurd h hm.2.1
      | cons c cs =>
        have := (hm.1 c (by simp [h])).2.2
        simp [this]
    have h2 := span_identifier (mnemonicText mn) (joinOperands ts) (fun c hc => (hm.1 c hc).2.1)
      (joinOperands_head ts)
    have h3 : takeLabel (mnemonicText mn ++ joinOperands ts) = none := by
      unfold takeLabel
      rw [h2.1, h2.2]
      rcases joinOperands_head ts with h | ⟨r, h⟩ <;> rw [h] <;> cases mn <;> rfl
    unfold takeLabels
    rw [h1, h3]

theorem readSource_line (mn : Mnemonic) (ts : List (List Char)) (h : ∀ t ∈ ts, IsToken t) :
    readSource (mnemonicText mn ++ joinOperands ts) =
      [{ labels := [], tokens := mnemonicText mn :: ts }] := by
  have hm := mnemonicText_spec mn
  have hall : ∀ c ∈ mnemonicText mn ++ joinOperands ts, c ≠ '\n' ∧ c ≠ ';' ∧ c ≠ '#' := by
    intro c hc
    rcases List.mem_append.mp hc with hc | hc
    · exact (hm.1 c hc).1.2
    · exact mem_joinOperands ts (fun c => c ≠ '\n' ∧ c ≠ ';' ∧ c ≠ '#') (by decide) (by decide)
        (fun t ht c hc => ((h t ht).2 c hc).2) c hc
  unfold readSource
  rw [splitLines_single _ fun c hc => (hall c hc).1]
  simp only [List.map_cons, List.map_nil, readLine]
  rw [stripComment_of_no_mark _ fun c hc => (hall c hc).2, takeLabels_line,
    tokensOf_line _ (fun c hc => (hm.1 c hc).1) hm.2.1 _ h]

theorem assemble_line (m : OpcodeMap) (mn : Mnemonic) (ts : List (List Char))
    (D : DecodeRecord) (h : ∀ t ∈ ts, IsToken t) (hp : parseOperands [] mn ts = .ok D) :
    assemble m (mnemonicText mn ++ joinOperands ts) =
      .ok (encode m (instrOfFields mn D), []) := by
  have hm := mnemonicText_spec mn
  unfold assemble
  rw [readSource_line mn ts h]
  simp [passOne, recordLabels, lineSize, hm.2.2, passTwo, emitLine, hp]

theorem parseRegister_regText (r : Byte) (h : regFieldOk r = true) :
    parseRegister (regText r) = .ok r := by
  have hlt : r.toNat < 8 := by simpa [regFieldOk] using h
  unfold regText parseRegister
  simp only [true_or, if_true]
  rw [digitsValue_decimal _ (by omega)]
  simp [hlt]

theorem parseNumber_decimal (n : Nat) (h : n < 2 ^ 32) :
    parseNumber [] (decimal n) = .ok (n : Int) := by
  unfold parseNumber parseLiteral
  rw [digitsValue_decimal _ h]
  rfl

theorem parseWord_decimal (v : Word) : parseWord [] (decimal v.toNat) = .ok v := by
  unfold parseWord
  rw [parseNumber_decimal _ v.isLt]
  simp only
  rw [if_pos (by have := v.isLt; omega)]
  congr 1
  simp

theorem parseOffset_decimal (v : Half) : parseOffset [] (decimal v.toNat) = .ok v := by
  unfold parseOffset
  rw [parseNumber_decimal _ (by have := v.isLt; omega)]
  simp only
  rw [if_pos (by have := v.isLt; omega)]
  congr 1
  simp

theorem isToken_decimal (n : Nat) : IsToken (decimal n) :=
  ⟨decimalDigits_ne_nil 9 n [], decimalDigits_tokenChar _ _ _ (by simp)⟩

theorem isToken_regText (r : Byte) : IsToken (regText r) := by
  refine ⟨by simp [regText], ?_⟩
  intro c hc
  rcases List.mem_cons.mp hc with rfl | hc
  · unfold TokenChar; decide
  · exact (isToken_decimal _).2 c hc

end Sys2Proof.Machine
end

