-- ==== Sys2Proof/Tests/Slice0.lean ====
section
/-! SUPPORT. The model's own tests: expected results are the spec's (its encodings and the vectors of 95_test_vectors.md,
named in each comment). The last part holds, for each obligation with hypotheses, a state and operands that meet them. -/

namespace Sys2Proof.Tests

open Sys2Proof.Machine Sys2Proof.Statements

/-! Helpers. -/

/-- The machine after reset with `bytes` at address 0. -/
def prog (bytes : List Byte) : State :=
  { State.reset with ram := Memory.ofBytes 0 bytes }

/-- The machine after reset with `bytes` at address `pc`, and PC there. -/
def progAt (pc : Nat) (bytes : List Byte) : State :=
  { State.reset with ram := Memory.ofBytes pc bytes, pc := BitVec.ofNat 32 pc }

/-- A result is a next state that passes a check. -/
def nextIs (r : StepResult) (check : State → Bool) : Bool :=
  match r with
  | .next t => check t
  | .fault _ => false
  | .refused _ => false

/-- A result is a next state whose reported code is `c`, halted, with PC kept. -/
def faultsAt (r : StepResult) (c : ExecFault) (pc : Word) : Bool :=
  nextIs r fun t => t.status == .execFault c && t.halted && t.pc == pc

/-- A result is the structural error `f`. -/
def abortsWith (r : StepResult) (f : Fault) : Bool :=
  match r with
  | .next _ => false
  | .fault g => g == f
  | .refused _ => false

/-- A result is the refusal of a device fetch. -/
def refuses (r : StepResult) : Bool :=
  match r with
  | .next _ => false
  | .fault _ => false
  | .refused q => q == .deviceFetch

/-- One device, on 64 to 71 (the bus vectors' configuration). -/
def window : DeviceMapping where
  base := 64
  size := 8
  dev := 0

/-- `s` with that device registered. -/
def withWindow (s : State) : State :=
  { s with devmap := [window] }

/-- P1 of 95_test_vectors.md. -/
def bytesP1 : List Byte :=
  [0x03, 0x00, 0x07, 0x00, 0x00, 0x00, 0x0E, 0x00, 0x01]

/-! WellFormed: an ill-formed term for each register field. -/

theorem test_wf_accepts : (Instr.add 7 0 7).wellFormed = true ∧ Instr.halt.wellFormed = true := by decide
theorem test_wf_refuses_r1 : (Instr.add 8 0 0).wellFormed = false := by decide
theorem test_wf_refuses_r2 : (Instr.add 0 8 0).wellFormed = false := by decide
theorem test_wf_refuses_r3 : (Instr.add 0 0 255).wellFormed = false := by decide
theorem test_wf_refuses_rro :
    (Instr.load 8 0 0).wellFormed = false ∧ (Instr.store 0 8 0).wellFormed = false := by decide
theorem test_wf_refuses_single :
    (Instr.push 8).wellFormed = false ∧ (Instr.pop 8).wellFormed = false ∧
      (Instr.out 8).wellFormed = false ∧ (Instr.inp 8).wellFormed = false ∧
      (Instr.loadi 8 0).wellFormed = false ∧ (Instr.cmp 0 8).wellFormed = false := by decide

/-! Decoding: each word written out from R111 and R121 (byte k in bits 8k+7 : 8k). -/

theorem test_decode_halt : decodeTableWord 8 0x01 = some .halt := by decide
theorem test_decode_ret : decodeTableWord 8 0x02 = some .ret := by decide
theorem test_decode_loadi : decodeTableWord 48 0x123456780503 = some (.loadi 5 0x12345678) := by decide
theorem test_decode_load : decodeTableWord 40 0x1234010204 = some (.load 2 1 0x1234) := by decide
theorem test_decode_store : decodeTableWord 40 0x0004000105 = some (.store 1 0 4) := by decide
theorem test_decode_add : decodeTableWord 32 0x01000206 = some (.add 2 0 1) := by decide
theorem test_decode_sub : decodeTableWord 32 0x01000207 = some (.sub 2 0 1) := by decide
theorem test_decode_and : decodeTableWord 32 0x03040508 = some (.and 5 4 3) := by decide
theorem test_decode_or : decodeTableWord 32 0x03040509 = some (.or 5 4 3) := by decide
theorem test_decode_xor : decodeTableWord 32 0x0506070A = some (.xor 7 6 5) := by decide
theorem test_decode_cmp : decodeTableWord 24 0x01000B = some (.cmp 0 1) := by decide
theorem test_decode_push : decodeTableWord 16 0x030C = some (.push 3) := by decide
theorem test_decode_pop : decodeTableWord 16 0x050D = some (.pop 5) := by decide
theorem test_decode_out : decodeTableWord 16 0x020E = some (.out 2) := by decide
theorem test_decode_in : decodeTableWord 16 0x010F = some (.inp 1) := by decide
theorem test_decode_jmp : decodeTableWord 40 0x0000001010 = some (.jmp 16) := by decide
theorem test_decode_jz : decodeTableWord 40 0x0000002011 = some (.jz 32) := by decide
theorem test_decode_jnz : decodeTableWord 40 0x0000002012 = some (.jnz 32) := by decide
theorem test_decode_call : decodeTableWord 40 0x1234567813 = some (.call 0x12345678) := by decide
/-- E2, E3: 0x00 and 0x14 are unknown. -/
theorem test_decode_unknown : decodeTableWord 8 0x00 = none ∧ decodeTableWord 8 0x14 = none := by decide
/-- E9: the decoder's record, and the source's (R130): the offset travels in imm32. -/
theorem test_decode_record :
    (match decode defaultOpcodeMap [0x04, 0x02, 0x01, 0x34, 0x12] with
      | .ok D => D.r1 == 2 && D.r2 == 1 && D.off == 0x1234 && D.size == 5 &&
          D.toSource.imm32 == 0x1234
      | .error _ => false) = true := by decide
/-- R130: the third register of an RRR instruction travels in imm32. -/
theorem test_decode_source_rrr :
    (match decode defaultOpcodeMap [0x0A, 0x07, 0x06, 0x05] with
      | .ok D => D.toSource.imm32 == 5 && D.toSource.regA == 7 && D.toSource.regB == 6
      | .error _ => false) = true := by decide
/-- E5: too few bytes left is a DecodeError. -/
theorem test_decode_short :
    decode defaultOpcodeMap [0x03, 0x00, 0x00] = .error .outOfRange := by decide

/-! One step of each instruction: the examples of 41_data_transfer.md to 45_io_halt.md. -/

theorem test_loadi : nextIs (step (prog [0x03, 0x00, 0x2A, 0x00, 0x00, 0x00]))
    (fun t => t.reg 0 == 42 && !t.z && t.pc == 6) = true := by decide
theorem test_loadi_zero : nextIs (step (prog [0x03, 0x01, 0x00, 0x00, 0x00, 0x00]))
    (fun t => t.z && t.flags == 1) = true := by decide
theorem test_load : nextIs (exec (.load 2 1 4)
    ({ State.reset with ram := Memory.ofBytes 132 [0xEF, 0xBE, 0xAD, 0xDE] }.setReg 1 128))
    (fun t => t.reg 2 == 0xDEADBEEF && !t.z && t.pc == 5) = true := by decide
/-- R203: off = 0xFFFF adds 65535 with zext and subtracts 1 with sext. -/
theorem test_load_sext : nextIs (exec (.load 2 1 0xFFFF)
    ({ State.reset with
        cfg := { defaultConfig with offsetExt := .sext }
        ram := Memory.ofBytes 3 [0x77] }.setReg 1 4))
    (fun t => t.reg 2 == 0x77) = true := by decide
theorem test_store : nextIs (exec (.store 1 0 4)
    ((State.reset.setReg 1 128).setReg 0 0xDEADBEEF))
    (fun t => t.ram.readBytes 132 4 == [0xEF, 0xBE, 0xAD, 0xDE] && t.flags == 0 && t.pc == 5) = true := by
  decide
/-- R203: ea = MEM_SIZE - 3 aborts. -/
theorem test_store_past : abortsWith (exec (.store 1 0 0) (State.reset.setReg 1 253))
    .memOutOfRange = true := by decide
theorem test_add : nextIs (exec (.add 2 0 1) ((State.reset.setReg 0 10).setReg 1 5))
    (fun t => t.reg 2 == 15 && !t.z && t.pc == 4) = true := by decide
/-- R220: 0xFFFFFFFF + 1 = 0 and sets Z; the destination is a source. -/
theorem test_add_wraps : nextIs (exec (.add 0 0 1) ((State.reset.setReg 0 0xFFFFFFFF).setReg 1 1))
    (fun t => t.reg 0 == 0 && t.z) = true := by decide
theorem test_sub : nextIs (exec (.sub 2 0 1) ((State.reset.setReg 0 3).setReg 1 5))
    (fun t => t.reg 2 == 0xFFFFFFFE && !t.z) = true := by decide
theorem test_and : nextIs (exec (.and 2 0 1)
    ((State.reset.setReg 0 0xF0F0F0F0).setReg 1 0x0FF00FF0))
    (fun t => t.reg 2 == 0x00F000F0 && !t.z) = true := by decide
theorem test_or : nextIs (exec (.or 2 0 1)
    ((State.reset.setReg 0 0xF0F0F0F0).setReg 1 0x0FF00FF0))
    (fun t => t.reg 2 == 0xFFF0FFF0 && !t.z) = true := by decide
theorem test_xor : nextIs (exec (.xor 2 0 1)
    ((State.reset.setReg 0 0xF0F0F0F0).setReg 1 0x0FF00FF0))
    (fun t => t.reg 2 == 0xFF00FF00 && !t.z) = true := by decide
theorem test_cmp_equal : nextIs (exec (.cmp 0 1) ((State.reset.setReg 0 9).setReg 1 9))
    (fun t => t.z && t.pc == 3) = true := by decide
/-- R41: bits 31:1 keep their value when Z is cleared. -/
theorem test_cmp_differs : nextIs (exec (.cmp 0 1)
    ({ State.reset with flags := 0xFFFFFFFF }.setReg 0 9))
    (fun t => t.flags == 0xFFFFFFFE) = true := by decide
theorem test_jmp : nextIs (exec (.jmp 16) State.reset) (fun t => t.pc == 16) = true := by decide
theorem test_jz : nextIs (exec (.jz 32) { State.reset with pc := 8, flags := 1 })
    (fun t => t.pc == 32 && t.flags == 1) = true := by decide
theorem test_jz_falls : nextIs (exec (.jz 32) { State.reset with pc := 8, flags := 0xFFFFFFFE })
    (fun t => t.pc == 13) = true := by decide
theorem test_jnz : nextIs (exec (.jnz 32) { State.reset with pc := 8 })
    (fun t => t.pc == 32) = true := by decide
theorem test_jnz_falls : nextIs (exec (.jnz 32) { State.reset with pc := 8, flags := 1 })
    (fun t => t.pc == 13) = true := by decide
theorem test_push : nextIs (exec (.push 3) (State.reset.setReg 3 0x11223344))
    (fun t => t.ram.readBytes 248 4 == [0x44, 0x33, 0x22, 0x11] && t.sp == 248 && t.pc == 2) = true := by
  decide
theorem test_push_overflow : faultsAt (exec (.push 0) { State.reset with sp := 3, pc := 9 })
    .stackOverflow 9 = true := by decide
theorem test_pop : nextIs (exec (.pop 5)
    { State.reset with sp := 248, ram := Memory.ofBytes 248 [0x44, 0x33, 0x22, 0x11] })
    (fun t => t.reg 5 == 0x11223344 && t.sp == 252 && !t.z && t.pc == 2) = true := by decide
/-- P6: the second POP underflows at SP = 256. -/
theorem test_pop_underflow : faultsAt (exec (.pop 1) { State.reset with sp := 256, pc := 8 })
    .stackUnderflow 8 = true := by decide
/-- P5: CALL at 6 pushes 11. -/
theorem test_call : nextIs (exec (.call 14) { State.reset with pc := 6 })
    (fun t => t.pc == 14 && t.sp == 248 && t.ram.readBytes 248 4 == [0x0B, 0, 0, 0]) = true := by decide
theorem test_ret : nextIs (exec .ret
    { State.reset with sp := 248, flags := 1, ram := Memory.ofBytes 248 [0x0B, 0, 0, 0] })
    (fun t => t.pc == 11 && t.sp == 252 && t.flags == 1) = true := by decide
theorem test_out : nextIs (exec (.out 0) (State.reset.setReg 0 7))
    (fun t => t.out == [7] && t.pc == 2) = true := by decide
theorem test_in : nextIs (exec (.inp 1) { State.reset with inp := [.value 42, .value 9] })
    (fun t => t.reg 1 == 42 && !t.z && t.inp == [.value 9] && t.pc == 2) = true := by decide
/-- R175, D25: the register is checked before the wait. -/
theorem test_in_bad_register : faultsAt (exec (.inp 8) State.reset) .invalidRegister 0 = true := by decide
theorem test_halt : nextIs (step (progAt 11 [0x01])) (fun t => t.halted && t.pc == 11) = true := by decide
theorem test_halt_advances : nextIs (exec .halt
    { State.reset with cfg := { defaultConfig with haltAdvancesPc := true }, pc := 11 })
    (fun t => t.halted && t.pc == 12) = true := by decide

/-! The step. -/

/-- E4: an unknown opcode in the last byte needs only one byte. -/
theorem test_step_unknown : faultsAt (step { State.reset with pc := 255 })
    .unimplementedOpcode 255 = true := by decide
/-- E7: PC = 0xFFFFFFFF aborts; the check does not wrap. -/
theorem test_step_far : abortsWith (step { State.reset with pc := 0xFFFFFFFF })
    .decodeOutOfRange = true := by decide
/-- B10 and B11: opcode byte, then operand byte, in a device window. -/
theorem test_step_device_fetch :
    refuses (step (withWindow { State.reset with pc := 64 })) = true ∧
      refuses (step (withWindow (progAt 60 [0x03]))) = true := by decide
/-- B1: an access that starts below the window reads RAM. -/
theorem test_bus_ram : nextIs (exec (.load 0 1 0)
    (withWindow ({ State.reset with ram := Memory.ofBytes 60 [1, 2, 3, 4] }.setReg 1 60)))
    (fun t => t.reg 0 == 0x04030201 && t.devLog == []) = true := by decide
/-- B3: an access in the window's last bytes is the device's, whole. -/
theorem test_bus_device : resolve [window] 70 = .device 0 6 := by decide
/-- withFetchWord places the row's word where the next step fetches. -/
theorem test_withFetchWord : nextIs (step (State.reset.withFetchWord 32 0x01000206))
    (fun t => t.pc == 4 && t.z) = true := by decide

/-- R393, R305: a HALT ends a run cleanly, unless the run has met a refusal. -/
theorem test_ends_cleanly : endsCleanly (prog [0x01]) := ⟨0, _, ⟨_, rfl, rfl, rfl, rfl⟩, rfl⟩
theorem test_marked_run_is_not_clean : ¬ runsClean 0 State.reset.markRefused State.reset.markRefused :=
  fun h => Bool.noConfusion h.2

/-! The host. -/

/-- The table of 60_exceptions.md R301: a code of each channel. -/
theorem test_codes :
    (StepOutcome.execFault .inputFailure).code = some 5 ∧
    (StepOutcome.structError .deviceFault).code = some 18 ∧
    (StepOutcome.refused .deviceFetch).code = some 32 ∧
    HostError.memOutOfRange.code = 48 ∧ HostError.snapTrailingBytes.code = 62 := by decide

/-- H2: a v2 image of P1 loads; H5: a flipped payload byte is found. -/
theorem test_load_v2 :
    (match loadProgramBytes ([0x56, 0x4D, 0x42, 0x31, 2, 0, 0, 0, 0, 0, 0, 0, 9, 0, 0, 0,
        0x1A, 0x00, 0x80, 0x00] ++ bytesP1) State.reset with
      | .ok t => t.ram.readBytes 0 10 == bytesP1 ++ [0] && t.pc == 0
      | .error _ => false) = true := by decide
theorem test_load_flipped :
    (match loadProgramBytes ([0x56, 0x4D, 0x42, 0x31, 2, 0, 0, 0, 0, 0, 0, 0, 9, 0, 0, 0,
        0x1A, 0x00, 0x80, 0x00] ++ bytesP1.set 2 0x06) State.reset with
      | .ok _ => false
      | .error e => e == .headerChecksumMismatch) = true := by decide
/-- 95_test_vectors.md: Adler32(P1), and emission gives the bytes of H2. -/
theorem test_adler : adler32 bytesP1 = 0x0080001A := by decide
theorem test_emit : emitHeader 0 bytesP1 = [0x56, 0x4D, 0x42, 0x31, 2, 0, 0, 0, 0, 0, 0, 0,
    9, 0, 0, 0, 0x1A, 0x00, 0x80, 0x00] ++ bytesP1 := by decide
/-- H9 and H10. -/
theorem test_load_bad_header :
    parseProgram true ([0x56, 0x4D, 0x42, 0x31, 3, 0, 0, 0, 0, 0, 0, 0] ++ bytesP1) =
        .error .headerBadVersion ∧
      parseProgram true [0x56, 0x4D, 0x42, 0x31, 2, 0] = .error .headerTruncated := by decide
/-- The machine of the snapshot vectors: P1 run to halt with MEM_SIZE = 16. -/
def haltedP1 : State :=
  { construct { defaultConfig with memSize := 16 } bytesP1 with pc := 8, halted := true }.setReg 0 7
/-- The snapshot vector: the length, and the fields of rows 16 and 48. -/
theorem test_snapshot :
    (saveSnapshot haltedP1).length = 80 ∧
      ((saveSnapshot haltedP1).drop 16).take 12 = [8, 0, 0, 0, 0, 0, 0, 0, 7, 0, 0, 0] ∧
      ((saveSnapshot haltedP1).drop 56).take 9 = [0x10, 0, 0, 0, 0, 0, 0, 0, 0x03] := by decide
/-- N2 and N3. -/
theorem test_snapshot_refused :
    checkSnapshot haltedP1.cfg ((saveSnapshot haltedP1).take 3) = some .snapTruncated ∧
      checkSnapshot haltedP1.cfg ((saveSnapshot haltedP1).set 0 0x54) = some .snapBadMagic := by decide
/-- R2: a run started at a breakpoint stops after 0 steps; R13: BP_FULL. -/
theorem test_breakpoint :
    (runUntilHalt 3 { State.reset with bp := [0] }).stop = some .stopBreakpoint ∧
      (match addBreakpoint 8
          { State.reset with bp := [4], cfg := { defaultConfig with bpMax := some 1 } } with
        | .ok _ => false
        | .error e => e == .bpFull) = true := by decide
/-- The disassembly table: LOADI, and an unknown opcode. -/
theorem test_disassemble :
    disassembleAt 0 (prog [0x03, 0x00, 0x2A]) = .ok "LOADI R0, 42".toList ∧
      disassembleAt 0 (prog [0xFF]) = .ok "UNIMPLEMENTED 255".toList := by decide
/-- The assembler table: case, hexadecimal, comment; brackets as delimiters. -/
theorem test_assemble :
    assemble defaultOpcodeMap "loadi r0, 0x2A ; comment".toList =
      .ok ([0x03, 0x00, 0x2A, 0x00, 0x00, 0x00], []) := by decide
theorem test_assemble_brackets :
    assemble defaultOpcodeMap "LOAD R1, [R2], 4".toList = .ok ([0x04, 0x01, 0x02, 0x04, 0x00], []) := by
  decide
theorem test_assemble_label :
    assemble defaultOpcodeMap "start: HALT\nJMP start".toList =
      .ok ([0x01, 0x10, 0, 0, 0, 0], [("start".toList, 0)]) := by decide
theorem test_assemble_errors :
    assemble defaultOpcodeMap "LOADI R8, 1".toList = .error .invalidRegister ∧
      assemble defaultOpcodeMap "JMP nowhere".toList = .error .unresolvedLabel := by decide

/-! Witnesses: for each obligation with hypotheses, what meets them, at the boundary of each clause. -/

theorem test_witness_DecodeOfEncode : defaultOpcodeMap.injective = true := by decide

theorem test_witness_EncodeOfDecode :
    ∃ D, decode defaultOpcodeMap [0x06, 0x02, 0x00, 0xFF, 0x99] = .ok D ∧
      D.instr = some (.add 2 0 255) := ⟨_, rfl, rfl⟩

theorem test_witness_SizesFollowTheTable :
    defaultOpcodeMap.injective = true ∧
      ∃ D, decode defaultOpcodeMap (defaultOpcodeMap.code .ret :: []) = .ok D :=
  ⟨by decide, _, rfl⟩

theorem test_witness_UnknownOpcodeIsUnimplemented :
    (∀ mn, defaultOpcodeMap.code mn ≠ 0x14) ∧
      ∃ s : State, s.halted = false ∧ s.pc.toNat + 1 = s.cfg.memSize ∧
        resolve s.devmap s.pc.toNat = .ram ∧
        ∀ mn, s.cfg.opcodes.code mn ≠ s.ram.read s.pc.toNat :=
  ⟨fun mn => by cases mn <;> decide, { State.reset with pc := 255 }, rfl, rfl, rfl,
    fun mn => by cases mn <;> decide⟩

/-- An ADD in the last four bytes of RAM. -/
theorem test_witness_StepRunsTheDecodedInstruction :
    ∃ s : State, s.halted = false ∧ s.cfg.opcodes.injective = true ∧
      s.pc.toNat + (Instr.add 2 0 1).size = s.cfg.memSize ∧
      ∀ k, k < (Instr.add 2 0 1).size → resolve s.devmap (s.pc.toNat + k) = .ram ∧
        s.ram.read (s.pc.toNat + k) = (encode s.cfg.opcodes (.add 2 0 1)).getD k 0 :=
  ⟨progAt 252 [0x06, 0x02, 0x00, 0x01], by decide, by decide, by decide, by decide⟩

theorem test_witness_HaltedStepChangesNothing :
    { State.reset with halted := true }.halted = true := by decide

/-- PC = MEM_SIZE; and a LOADI one byte too late. -/
theorem test_witness_FetchPastTheEndAborts :
    (∃ s : State, s.halted = false ∧ s.pc.toNat = s.cfg.memSize) ∧
      ∃ s : State, s.halted = false ∧ s.cfg.opcodes.injective = true ∧
        resolve s.devmap s.pc.toNat = .ram ∧
        s.ram.read s.pc.toNat = s.cfg.opcodes.code .loadi ∧
        s.cfg.memSize + 1 = s.pc.toNat + documentedSize .loadi :=
  ⟨⟨{ State.reset with pc := 256 }, rfl, rfl⟩,
    progAt 251 [0x03], by decide, by decide, by decide, by decide, by decide⟩

/-- The window's last byte; and a LOADI whose fifth byte is the window's first. -/
theorem test_witness_DeviceFetchIsRefused :
    (∃ s : State, s.halted = false ∧ s.pc.toNat < s.cfg.memSize ∧
      resolve s.devmap s.pc.toNat ≠ .ram) ∧
      ∃ s : State, s.halted = false ∧ s.cfg.opcodes.injective = true ∧
        resolve s.devmap s.pc.toNat = .ram ∧
        s.ram.read s.pc.toNat = s.cfg.opcodes.code .loadi ∧
        s.pc.toNat + documentedSize .loadi ≤ s.cfg.memSize ∧ 4 < documentedSize .loadi ∧
        resolve s.devmap (s.pc.toNat + 4) ≠ .ram :=
  ⟨⟨withWindow { State.reset with pc := 71 }, by decide, by decide, by decide⟩,
    withWindow (progAt 60 [0x03]), by decide, by decide, by decide, by decide, by decide, by decide,
    by decide⟩

/-- A refused step; a run that meets one; and a marked state on which the host goes on. -/
theorem test_witness_DeviceFetchIsRefused_marks :
    let s := withWindow { State.reset with pc := 71 };
    step s = .refused .deviceFetch ∧
      (runLoop true none 1 0 s).stop = some (.abort (.refused .deviceFetch)) ∧
      s.markRefused.refusalMark = true ∧
      host 1 .powerOn s.markRefused = .returned .done (powerOn s.markRefused) ∧
      host 0 .runUntilHalt s.markRefused = .pending s.markRefused :=
  ⟨rfl, rfl, rfl, rfl, rfl⟩

/-- An unknown opcode; and a failed read of IN, whose answer is taken. -/
theorem test_witness_ExecutionFaultIsPrecise :
    (∃ t, step State.reset = .next t ∧ t.status = .execFault .unimplementedOpcode) ∧
      ∃ t, step { prog [0x0F, 0x01] with inp := [.failure] } = .next t ∧
        t.status = .execFault .inputFailure :=
  ⟨⟨_, rfl, rfl⟩, _, rfl, rfl⟩

/-- What `CutAborts` asks, for every instruction it is stated of: PC at the end, and the opcode one byte too late. -/
theorem test_witness_CutAborts :
    (∃ s : State, s.halted = false ∧ s.cfg.opcodes.injective = true ∧ s.cfg.memSize = s.pc.toNat) ∧
      ∀ mn ∈ [Mnemonic.loadi, .add, .sub, .and, .or, .xor, .cmp, .jmp, .jz, .jnz],
        let s := progAt (257 - documentedSize mn) [defaultOpcodeMap.code mn];
        s.halted = false ∧ s.cfg.opcodes.injective = true ∧
          resolve s.devmap s.pc.toNat = .ram ∧
          s.ram.read s.pc.toNat = s.cfg.opcodes.code mn ∧
          s.cfg.memSize < s.pc.toNat + documentedSize mn :=
  ⟨⟨{ State.reset with pc := 256 }, by decide, by decide, by decide⟩, by decide⟩

/-- The first register field that names no register: of LOADI, of the three-register instructions and of CMP. -/
theorem test_witness_LoadImmediate : 8 ≤ (0x08 : Byte).toNat := by decide
theorem test_witness_AluInstructions :
    8 ≤ (0x08 : Byte).toNat ∨ 8 ≤ (0x07 : Byte).toNat ∨ 8 ≤ (0x00 : Byte).toNat := by decide
theorem test_witness_CompareInstruction : 8 ≤ (0x07 : Byte).toNat ∨ 8 ≤ (0x08 : Byte).toNat := by
  decide

/-- ea = MEM_SIZE - 4, the highest legal address. -/
theorem test_witness_LoadReadsRam :
    let s := State.reset.setReg 1 248;
    resolve s.devmap (dataAddress s 1 4).toNat = .ram ∧
      (dataAddress s 1 4).toNat + 4 = s.cfg.memSize := by decide

theorem test_witness_StoreWritesRam :
    let s := State.reset.setReg 1 248;
    s.ram.wf = true ∧ resolve s.devmap (dataAddress s 1 4).toNat = .ram ∧
      (dataAddress s 1 4).toNat + 4 = s.cfg.memSize := by decide

/-- The window's last byte. -/
theorem test_witness_LoadAndStoreThroughADevice :
    let s := withWindow (State.reset.setReg 1 71);
    resolve s.devmap (dataAddress s 1 0).toNat = .device 0 7 := by decide

/-- A target at the memory's end, and one that leaves a LOADI one byte short; running, under a legal map. -/
theorem test_witness_JumpInstruction :
    (∃ t, exec (.jmp 256) State.reset = .next t ∧ State.reset.halted = false ∧
      State.reset.cfg.opcodes.injective = true ∧ BadTarget State.reset 256) ∧
      BadTarget (progAt 251 [0x03]) 251 :=
  ⟨⟨_, rfl, rfl, by decide, .inl (by decide)⟩,
    .inr ⟨.loadi, by decide, by decide, by decide⟩⟩

/-- JZ taken with Z = 1 and JNZ with Z = 0, to a target at the memory's end. -/
theorem test_witness_ConditionalJumps :
    (∃ s t : State, exec (.jz 256) s = .next t ∧ s.flags.getLsbD 0 = true ∧ s.halted = false ∧
      s.cfg.opcodes.injective = true ∧ BadTarget s 256) ∧
      ∃ s t : State, exec (.jnz 256) s = .next t ∧ s.flags.getLsbD 0 = false ∧ s.halted = false ∧
        s.cfg.opcodes.injective = true ∧ BadTarget s 256 :=
  ⟨⟨{ State.reset with flags := 1 }, _, rfl, by decide, rfl, by decide, .inl (by decide)⟩,
    State.reset, _, rfl, by decide, rfl, by decide, .inl (by decide)⟩

/-- SP = 4 and SP = MEM_SIZE. -/
theorem test_witness_PushWritesBelowSp :
    State.reset.ram.wf = true ∧
      4 ≤ (4 : Word).toNat ∧ (4 : Word).toNat ≤ State.reset.cfg.memSize ∧
      4 ≤ (256 : Word).toNat ∧ (256 : Word).toNat ≤ State.reset.cfg.memSize ∧
      resolve State.reset.devmap ((4 : Word).toNat - 4) = .ram ∧
      resolve State.reset.devmap ((256 : Word).toNat - 4) = .ram :=
  ⟨rfl, by simp, by decide, by simp, by decide, rfl, rfl⟩

theorem test_witness_CallPushesReturnAddress :
    State.reset.ram.wf = true ∧
      4 ≤ (4 : Word).toNat ∧ (4 : Word).toNat ≤ State.reset.cfg.memSize ∧
      4 ≤ (256 : Word).toNat ∧ (256 : Word).toNat ≤ State.reset.cfg.memSize ∧
      resolve State.reset.devmap ((4 : Word).toNat - 4) = .ram ∧
      resolve State.reset.devmap ((256 : Word).toNat - 4) = .ram :=
  ⟨rfl, by simp, by decide, by simp, by decide, rfl, rfl⟩

/-- SP = MEM_SIZE - 4, as reset leaves it. -/
theorem test_witness_PopReadsAtSp :
    State.reset.sp.toNat + 4 = State.reset.cfg.memSize ∧ State.reset.cfg.memSize ≤ 2 ^ 32 - 4 ∧
      resolve State.reset.devmap State.reset.sp.toNat = .ram :=
  ⟨by decide, (by norm_num : (256 : Nat) ≤ 2 ^ 32 - 4), by decide⟩

theorem test_witness_RetPopsTarget :
    State.reset.sp.toNat + 4 = State.reset.cfg.memSize ∧ State.reset.cfg.memSize ≤ 2 ^ 32 - 4 ∧
      resolve State.reset.devmap State.reset.sp.toNat = .ram :=
  ⟨by decide, (by norm_num : (256 : Nat) ≤ 2 ^ 32 - 4), by decide⟩

/-- A stack word at the window's first byte for PUSH and CALL, and at its last for POP and RET. -/
theorem test_witness_StackThroughADevice :
    (let s := withWindow { State.reset with sp := 68 };
      4 ≤ s.sp.toNat ∧ resolve s.devmap (s.sp.toNat - 4) = .device 0 0) ∧
      let s := withWindow { State.reset with sp := 71 };
      s.sp.toNat + 4 ≤ s.cfg.memSize ∧ s.cfg.memSize ≤ 2 ^ 32 - 4 ∧
        resolve s.devmap s.sp.toNat = .device 0 7 :=
  ⟨by decide, by decide, (by norm_num : (256 : Nat) ≤ 2 ^ 32 - 4), by decide⟩

theorem test_witness_StackOverflowFaults : { State.reset with sp := 3 }.sp.toNat < 4 := by decide

theorem test_witness_StackUnderflowFaults :
    let s := { State.reset with sp := 253 };
    s.cfg.memSize + 1 = s.sp.toNat + 4 := by decide

/-- ea = MEM_SIZE - 3; and SP = MEM_SIZE + 1. -/
theorem test_witness_DataAccessPastTheEndAborts :
    (let s := State.reset.setReg 1 253;
      resolve s.devmap (dataAddress s 1 0).toNat = .ram ∧
        s.cfg.memSize + 1 = (dataAddress s 1 0).toNat + 4) ∧
      let s := { State.reset with sp := 257 };
      4 ≤ s.sp.toNat ∧ resolve s.devmap (s.sp.toNat - 4) = .ram ∧
        s.cfg.memSize < s.sp.toNat - 4 + 4 := by decide

theorem test_witness_InvalidRegisterFaults :
    namesBadRegister (.push 8) ∧ ¬ namesBadRegister (.push 7) := by
  unfold namesBadRegister; decide

theorem test_witness_InTakesTheNextAnswer :
    { State.reset with inp := [.value 0] }.inp = .value 0 :: [] ∧
      { State.reset with inp := [.failure] }.inp = .failure :: [] ∧ State.reset.inp = [] := by decide

theorem test_witness_RegisterResultFrame :
    (∃ t, exec (.loadi 7 0) State.reset = .next t) ∧ (∃ t, exec (.add 7 0 1) State.reset = .next t) ∧
      (∃ t, exec (.sub 7 0 1) State.reset = .next t) ∧ (∃ t, exec (.and 7 0 1) State.reset = .next t) ∧
      (∃ t, exec (.or 7 0 1) State.reset = .next t) ∧ ∃ t, exec (.xor 7 0 1) State.reset = .next t :=
  ⟨⟨_, rfl⟩, ⟨_, rfl⟩, ⟨_, rfl⟩, ⟨_, rfl⟩, ⟨_, rfl⟩, _, rfl⟩

theorem test_witness_NoRegisterResultFrame :
    (∃ t, exec .halt State.reset = .next t) ∧ (∃ t, exec (.cmp 0 7) State.reset = .next t) ∧
      (∃ t, exec (.out 7) State.reset = .next t) ∧ (∃ t, exec (.jmp 0) State.reset = .next t) ∧
      (∃ t, exec (.jz 0) State.reset = .next t) ∧ ∃ t, exec (.jnz 0) State.reset = .next t :=
  ⟨⟨_, rfl⟩, ⟨_, rfl⟩, ⟨_, rfl⟩, ⟨_, rfl⟩, ⟨_, rfl⟩, _, rfl⟩

theorem test_witness_ReadingFrame :
    (∃ t, exec (.load 7 (regField 0) 252) State.reset = .next t ∧
      resolve State.reset.devmap (dataAddress State.reset 0 252).toNat = .ram) ∧
      (∃ t, exec (.pop 7) State.reset = .next t ∧
        resolve State.reset.devmap State.reset.sp.toNat = .ram) ∧
      (∃ t, exec .ret State.reset = .next t ∧
        resolve State.reset.devmap State.reset.sp.toNat = .ram) ∧
      ∃ t, exec (.inp 7) State.reset = .next t :=
  ⟨⟨_, rfl, by decide⟩, ⟨_, rfl, by decide⟩, ⟨_, rfl, by decide⟩, _, rfl⟩

theorem test_witness_StoringFrame :
    (∃ t, exec (.store (regField 0) (regField 7) 252) State.reset = .next t ∧
      resolve State.reset.devmap (dataAddress State.reset 0 252).toNat = .ram) ∧
      (∃ t, exec (.push 7) State.reset = .next t) ∧ (∃ t, exec (.call 0) State.reset = .next t) ∧
      resolve State.reset.devmap (State.reset.sp.toNat - 4) = .ram ∧
      (8 ≤ (0x08 : Byte).toNat ∨ 8 ≤ (0x00 : Byte).toNat) ∧
      ∃ t, exec (.store 8 0 0) State.reset = .next t :=
  ⟨⟨_, rfl, by decide⟩, ⟨_, rfl⟩, ⟨_, rfl⟩, by decide, by decide, _, rfl⟩

/-- The clauses on a device window: STORE to the window's last byte, PUSH to its first (each next state is the oracle's
choice, so the hypothesis shown is the routing). -/
theorem test_witness_StoringFrame_device :
    (let s := withWindow State.reset;
      resolve s.devmap (dataAddress s 0 71).toNat ≠ .ram) ∧
      let s := withWindow { State.reset with sp := 68 };
      resolve s.devmap (s.sp.toNat - 4) ≠ .ram := by decide

theorem test_witness_WordsAreLittleEndian :
    State.reset.ram.wf = true ∧ resolve State.reset.devmap (252 : Word).toNat = .ram ∧
      (252 : Word).toNat + 4 = State.reset.cfg.memSize := by decide

/-- The window's first and last byte, and the byte after it. -/
theorem test_witness_BusRoutesByStartAddress :
    devmapOk [window] = true ∧ window ∈ [window] ∧
      (∀ a ∈ [64, 71], window.base.toNat ≤ a ∧ a < window.base.toNat + window.size) ∧
      ∀ m ∈ [window], ¬ (m.base.toNat ≤ 72 ∧ 72 < m.base.toNat + m.size) := by decide

theorem test_witness_PopAfterPushRestores :
    ∃ t, State.reset.inv = true ∧ State.reset.sp.toNat ≤ State.reset.cfg.memSize ∧
      resolve State.reset.devmap (State.reset.sp.toNat - 4) = .ram ∧
      exec (.push (regField 3)) State.reset = .next t ∧ t.status = .executed :=
  ⟨_, by decide, by decide, by decide, rfl, rfl⟩

theorem test_witness_RetAfterCallReturns :
    ∃ t, State.reset.inv = true ∧ State.reset.sp.toNat ≤ State.reset.cfg.memSize ∧
      resolve State.reset.devmap (State.reset.sp.toNat - 4) = .ram ∧
      exec (.call 14) State.reset = .next t ∧ t.status = .executed :=
  ⟨_, by decide, by decide, by decide, rfl, rfl⟩

theorem test_witness_StepKeepsInvariant :
    ∃ t, State.reset.inv = true ∧ step State.reset = .next t := ⟨_, by decide, rfl⟩

theorem test_witness_ReachableStatesMeetInvariant :
    configOk defaultConfig = true ∧ Reachable defaultConfig (construct defaultConfig [0x01]) :=
  ⟨by decide, .constructed _⟩

theorem test_witness_StepKeepsTheSetup : ∃ t, step State.reset = .next t := ⟨_, rfl⟩

theorem test_witness_OnlyZIsEverWritten :
    (∃ t, (Instr.push 0).mnemonic ∈ [Mnemonic.store, .push, .jmp, .jz, .jnz, .call, .ret, .out, .halt] ∧
      exec (.push 0) State.reset = .next t) ∧ ∃ t, step State.reset = .next t :=
  ⟨⟨_, by decide, rfl⟩, _, rfl⟩

/-- A halted machine, its step, and powerOn leaving the halt. -/
theorem test_witness_HaltedIsTerminal :
    (∃ t, haltedP1.halted = true ∧ step haltedP1 = .next t) ∧
      ∃ t, host 1 .powerOn haltedP1 = .returned .done t ∧ t.halted = false :=
  ⟨⟨_, rfl, rfl⟩, _, rfl, rfl⟩

theorem test_witness_RegistersAreZeroAfterReset :
    ∃ t, loadProgramBytes bytesP1 (State.reset.setReg 3 5) = .ok t := ⟨_, rfl⟩

theorem test_witness_PowerOnResetsTheCpu : configOk State.reset.cfg = true := by decide

theorem test_witness_ProgramLoadDefinesTheState :
    configOk State.reset.cfg = true ∧ ∃ t, parseProgram State.reset.cfg.verify bytesP1 = .ok (bytesP1, 0) ∧
      loadProgramBytes bytesP1 State.reset = .ok t ∧ haltedP1.cfg ≠ State.reset.cfg ∧
      (State.reset.setReg 3 5).cfg = State.reset.cfg :=
  ⟨by decide, _, by decide, rfl, by decide, rfl⟩

/-- The last payload byte, changed as in H6. -/
theorem test_witness_ChecksumProperty :
    State.reset.cfg.verify = true ∧ bytesP1.length < 2 ^ 32 ∧
      bytesP1.length ≤ State.reset.cfg.memSize ∧ 8 < bytesP1.length ∧
      (0x81 : Byte) ≠ bytesP1.getD 8 0 := by decide

theorem test_witness_SnapshotRoundTrip :
    State.reset.inv = true ∧ (State.reset.setReg 3 5).cfg = State.reset.cfg := by decide

/-- A run started at a breakpoint, and one that reaches its breakpoint after one step: P1's LOADI ends at 6. -/
theorem test_witness_BreakpointStopsBeforeExecuting :
    (let s := { State.reset with bp := [0] };
      (runUntilHalt 1 s).stop = some .stopBreakpoint ∧ (runSteps 2 1 s).stop = some .stopBreakpoint ∧
        s.halted = false ∧ 0 < s.cfg.bpStepCap ∧ s.pc ∈ s.bp) ∧
    (let s := { progAt 0 bytesP1 with bp := [6] };
      s.pc ∉ s.bp ∧ (runUntilHalt 1 s).state.halted = false ∧ (runUntilHalt 1 s).state.pc ∈ s.bp ∧
        (runSteps 2 1 s).state.halted = false ∧ (runSteps 2 1 s).state.pc ∈ s.bp) := by decide

theorem test_witness_BreakpointRunIsBounded :
    let s := { State.reset with bp := [4], cfg := { defaultConfig with bpStepCap := 10 } };
    s.bp ≠ [] ∧ s.cfg.bpStepCap ≤ 10 ∧ 0 < 1 := by decide

theorem test_witness_CpuRunIsBounded : 0 < 1 ∧ 1 ≤ 1 := by decide

/-- B13 and B14: the whole of RAM's end, nothing at MEM_SIZE, and one byte further. -/
theorem test_witness_HostMemoryAccess :
    State.reset.cfg.memSize < 257 + 0 ∧ 250 + 6 ≤ State.reset.cfg.memSize ∧
      256 + 0 ≤ State.reset.cfg.memSize ∧
      State.reset.cfg.memSize < 254 + [(1 : Byte), 2, 3].length ∧
      State.reset.ram.wf = true ∧ 253 + [(1 : Byte), 2, 3].length ≤ State.reset.cfg.memSize := by decide

/-- B6 to B9, and a window that ends at 2^32. -/
theorem test_witness_DeviceRegistration :
    (∃ m ∈ [window], (68 : Word).toNat < m.base.toNat + m.size ∧
      m.base.toNat < (68 : Word).toNat + 4) ∧
      (∀ a ∈ [72, 200, 0xFFFFFFF0], ¬ (a < window.base.toNat + window.size)) ∧
      2 ^ 32 < (0xFFFFFFF0 : Word).toNat + 0x20 ∧
      (0xFFFFFFF0 : Word).toNat + 0x10 ≤ 2 ^ 32 :=
  ⟨by decide, by simp [window], by simp, by simp⟩

theorem test_witness_RegisterAccessors : 8 ≤ 8 := by decide

theorem test_witness_AssembleOfDisassembly :
    ∃ D, defaultOpcodeMap.injective = true ∧ (Instr.store 7 0 0xFFFF).wellFormed = true ∧
      decode defaultOpcodeMap (encode defaultOpcodeMap (.store 7 0 0xFFFF)) = .ok D :=
  ⟨_, by decide, by decide, rfl⟩

end Sys2Proof.Tests
end

section
/-! PROOF. What the next state of each shared operation and of each instruction is, once it answers one: the inversion
rules that the frames (10_state.md) are read off. -/

namespace Sys2Proof.Machine

/-- `s` after an instruction that completed with the result `v` in register `j`, Z computed from it, and PC at `pc`: what
every instruction with a register result leaves (41_data_transfer.md, 42_alu.md, 44_stack.md R262, 45_io_halt.md R283). -/
def State.withResult (s : State) (j : Fin 8) (v pc : Word) : State :=
  { (s.setReg j v).setZ v with pc := pc, status := .executed }

/-! The shared operations. -/

theorem withReg_next {r : Byte} {s t : State} {k : Fin 8 → StepResult} (h : withReg r s k = .next t) :
    t = s.faulted .invalidRegister ∨ ∃ i, r = regField i ∧ k i = .next t := by
  rcases withReg_cases r s k with ⟨i, hi, e⟩ | ⟨-, e⟩ <;> rw [e] at h
  · exact .inr ⟨i, hi, h⟩
  · cases h
    exact .inl rfl

/-- A read that succeeds changes at most the device log, and not that where the address is in RAM. -/
theorem memRead_frame {s s' : State} {addr v : Word} (h : s.memRead addr = .ok (v, s')) :
    ∃ l, s' = { s with devLog := l } ∧ (resolve s.devmap addr.toNat = .ram → l = s.devLog) := by
  refine ⟨s'.devLog, memRead_ok h, fun hr => ?_⟩
  rcases memRead_cases s addr with ⟨e, h'⟩ | ⟨-, h'⟩ | ⟨dev, off, w, hd, -⟩
  · rw [h] at h'
    cases h'
  · rw [h] at h'
    cases h'
    rfl
  · rw [hr] at hd
    cases hd

/-- A write that succeeds changes the four bytes at a RAM address, or the device log at a device's. -/
theorem memWrite_frame {s s' : State} {addr v : Word} (h : s.memWrite addr v = .ok s') :
    ∃ m l, s' = { s with ram := m, devLog := l } ∧
      (∀ k, (k < addr.toNat ∨ addr.toNat + 4 ≤ k) → m.read k = s.ram.read k) ∧
      (resolve s.devmap addr.toNat = .ram → l = s.devLog) ∧
      (resolve s.devmap addr.toNat ≠ .ram → ∀ k, m.read k = s.ram.read k) := by
  rcases memWrite_cases s addr v with ⟨e, h'⟩ | ⟨hr, -, h'⟩ | ⟨dev, off, hd, h'⟩ <;>
    rw [h] at h' <;> cases h'
  · exact ⟨_, s.devLog, rfl, fun k hk => read_writeBytes_away _ (wordBytes v) hk, fun _ => rfl,
      fun hn => absurd hr hn⟩
  · exact ⟨s.ram, _, rfl, fun _ _ => rfl, fun hr => absurd (hd.symm.trans hr) nofun,
      fun _ _ => rfl⟩

theorem pushWord_next {s t : State} {v pc : Word} (h : s.pushWord v pc = .next t) :
    t = s.faulted .stackOverflow ∨
      ∃ s', 4 ≤ s.sp.toNat ∧ s.memWrite (s.sp - 4) v = .ok s' ∧
        t = { s' with sp := s.sp - 4, pc := pc, status := .executed } := by
  by_cases hsp : s.sp.toNat < 4
  · rw [pushWord_overflow v pc hsp] at h
    cases h
    exact .inl rfl
  · rcases pushWord_cases s v pc with ⟨hlt, -⟩ | ⟨f, e⟩ | ⟨s', hw, e⟩
    · exact absurd hlt hsp
    · rw [e] at h
      cases h
    · rw [e] at h
      cases h
      exact .inr ⟨s', by omega, hw, rfl⟩

theorem popWord_next {s t : State} {k : Word → State → StepResult} (h : s.popWord k = .next t) :
    t = s.faulted .stackUnderflow ∨
      ∃ v s', s.memRead s.sp = .ok (v, s') ∧ k v { s' with sp := s.sp + 4 } = .next t := by
  rcases popWord_cases s k with ⟨-, e⟩ | ⟨f, e⟩ | ⟨v, s', hr, e⟩ <;> rw [e] at h
  · cases h
    exact .inl rfl
  · cases h
  · exact .inr ⟨v, s', hr, h⟩

/-! Instructions whose result comes from registers and immediates. -/

theorem exec_loadi_next {s t : State} {d : Byte} {imm : Word} (h : exec (.loadi d imm) s = .next t) :
    t = s.faulted .invalidRegister ∨
      ∃ j, d = regField j ∧ t = s.withResult j imm (s.pc + 6) := by
  rcases withReg_next h with rfl | ⟨j, rfl, hj⟩
  · exact .inl rfl
  · cases hj
    exact .inr ⟨j, rfl, rfl⟩

theorem aluOp_next {s t : State} {f : Word → Word → Word} {d a b : Byte}
    (h : aluOp f d a b s = .next t) :
    t = s.faulted .invalidRegister ∨
      ∃ j v, d = regField j ∧ t = s.withResult j v (s.pc + 4) := by
  rcases withReg_next h with rfl | ⟨j, rfl, hj⟩
  · exact .inl rfl
  rcases withReg_next hj with rfl | ⟨a, rfl, ha⟩
  · exact .inl rfl
  rcases withReg_next ha with rfl | ⟨b, rfl, hb⟩
  · exact .inl rfl
  cases hb
  exact .inr ⟨j, _, rfl, rfl⟩

theorem exec_cmp_next {s t : State} {a b : Byte} (h : exec (.cmp a b) s = .next t) :
    t = s.faulted .invalidRegister ∨
      ∃ z, t = { s.putZ z with pc := s.pc + 3, status := .executed } := by
  rcases withReg_next h with rfl | ⟨a, rfl, ha⟩
  · exact .inl rfl
  rcases withReg_next ha with rfl | ⟨b, rfl, hb⟩
  · exact .inl rfl
  cases hb
  exact .inr ⟨_, rfl⟩

/-! Jumps, OUT and IN. -/

theorem branch_next {s t : State} {taken : Bool} {target : Word}
    (h : branch taken target s = .next t) :
    ∃ pc, t = { s with pc := pc, status := .executed } := by
  unfold branch at h
  split at h <;> cases h <;> exact ⟨_, rfl⟩

theorem exec_jump_next {s t : State} {i : Instr} {target : Word}
    (hi : i = .jmp target ∨ i = .jz target ∨ i = .jnz target) (h : exec i s = .next t) :
    ∃ pc, t = { s with pc := pc, status := .executed } := by
  rcases hi with rfl | rfl | rfl
  · cases h
    exact ⟨_, rfl⟩
  · exact branch_next h
  · exact branch_next h

theorem exec_out_next {s t : State} {r : Byte} (h : exec (.out r) s = .next t) :
    t = s.faulted .invalidRegister ∨
      ∃ v, t = { s.emit v with pc := s.pc + 2, status := .executed } := by
  rcases withReg_next h with rfl | ⟨r, rfl, hr⟩
  · exact .inl rfl
  · cases hr
    exact .inr ⟨_, rfl⟩

theorem exec_in_next {s t : State} {d : Byte} (h : exec (.inp d) s = .next t) :
    t = s.faulted .invalidRegister ∨
      (s.inp = [] ∧ t = { s with status := .waitIn }) ∨
      (∃ rest, s.inp = .failure :: rest ∧ t = { s with inp := rest }.faulted .inputFailure) ∨
      ∃ j v rest, d = regField j ∧ s.inp = .value v :: rest ∧
        t = { s with inp := rest }.withResult j v (s.pc + 2) := by
  rcases withReg_next h with rfl | ⟨j, rfl, -⟩
  · exact .inl rfl
  have hinp : s.inp = [] ∨ (∃ rest, s.inp = .failure :: rest) ∨ ∃ v rest, s.inp = .value v :: rest := by
    rcases s.inp with - | ⟨v | -, rest⟩ <;> simp
  rcases hinp with hi | ⟨rest, hi⟩ | ⟨v, rest, hi⟩
  · rw [exec_in_wait s j hi] at h
    cases h
    exact .inr (.inl ⟨hi, rfl⟩)
  · rw [exec_in_failure s j hi] at h
    cases h
    exact .inr (.inr (.inl ⟨rest, hi, rfl⟩))
  · rw [exec_in_value s j hi] at h
    cases h
    exact .inr (.inr (.inr ⟨j, v, rest, rfl, hi, rfl⟩))

/-! Instructions that read memory. -/

theorem exec_load_next {s t : State} {d b : Byte} {off : Half}
    (h : exec (.load d b off) s = .next t) :
    t = s.faulted .invalidRegister ∨
      ∃ j i v s', d = regField j ∧ b = regField i ∧ s.memRead (s.effAddr i off) = .ok (v, s') ∧
        t = s'.withResult j v (s'.pc + 5) := by
  rcases withReg_next h with rfl | ⟨j, rfl, hj⟩
  · exact .inl rfl
  rcases withReg_next hj with rfl | ⟨i, rfl, hi⟩
  · exact .inl rfl
  cases hr : s.memRead (s.effAddr i off) with
  | error e => simp [hr] at hi
  | ok p =>
    simp only [hr] at hi
    cases hi
    exact .inr ⟨j, i, p.1, p.2, rfl, rfl, hr, rfl⟩

theorem exec_pop_next {s t : State} {d : Byte} (h : exec (.pop d) s = .next t) :
    (∃ c, t = s.faulted c) ∨
      ∃ j v s', d = regField j ∧ s.memRead s.sp = .ok (v, s') ∧
        t = { s' with sp := s.sp + 4 }.withResult j v (s'.pc + 2) := by
  rcases withReg_next h with rfl | ⟨j, rfl, hj⟩
  · exact .inl ⟨_, rfl⟩
  rcases popWord_next hj with rfl | ⟨v, s', hr, hv⟩
  · exact .inl ⟨_, rfl⟩
  cases hv
  exact .inr ⟨j, v, s', rfl, hr, rfl⟩

theorem exec_ret_next {s t : State} (h : exec .ret s = .next t) :
    t = s.faulted .stackUnderflow ∨
      ∃ v s', s.memRead s.sp = .ok (v, s') ∧
        t = { s' with sp := s.sp + 4, pc := v, status := .executed } := by
  rw [exec_ret] at h
  rcases popWord_next h with rfl | ⟨v, s', hr, hv⟩
  · exact .inl rfl
  · cases hv
    exact .inr ⟨v, s', hr, rfl⟩

/-! Instructions that write memory. -/

theorem exec_store_next {s t : State} {b r : Byte} {off : Half}
    (h : exec (.store b r off) s = .next t) :
    t = s.faulted .invalidRegister ∨
      ∃ i j s', b = regField i ∧ r = regField j ∧
        s.memWrite (s.effAddr i off) (s.reg j) = .ok s' ∧
        t = { s' with pc := s'.pc + 5, status := .executed } := by
  rcases withReg_next h with rfl | ⟨i, rfl, hi⟩
  · exact .inl rfl
  rcases withReg_next hi with rfl | ⟨j, rfl, hj⟩
  · exact .inl rfl
  cases hw : s.memWrite (s.effAddr i off) (s.reg j) with
  | error e => simp [hw] at hj
  | ok s' =>
    simp only [hw] at hj
    cases hj
    exact .inr ⟨i, j, s', rfl, rfl, hw, rfl⟩

/-- PUSH and CALL differ in the word they store and in where PC goes. -/
theorem exec_pushing_next {s t : State} {i : Instr} (hi : (∃ r, i = .push r) ∨ ∃ target, i = .call target)
    (h : exec i s = .next t) :
    (∃ c, t = s.faulted c) ∨
      ∃ v pc s', 4 ≤ s.sp.toNat ∧ s.memWrite (s.sp - 4) v = .ok s' ∧
        t = { s' with sp := s.sp - 4, pc := pc, status := .executed } := by
  have hp : (∃ c, t = s.faulted c) ∨ ∃ v pc, s.pushWord v pc = .next t := by
    obtain ⟨r, rfl⟩ | ⟨target, rfl⟩ := hi
    · rcases withReg_next h with e | ⟨j, -, hj⟩
      · exact .inl ⟨_, e⟩
      · exact .inr ⟨_, _, hj⟩
    · exact .inr ⟨_, _, h⟩
  rcases hp with hc | ⟨v, pc, hp⟩
  · exact .inl hc
  · rcases pushWord_next hp with e | ⟨s', e⟩
    · exact .inl ⟨_, e⟩
    · exact .inr ⟨v, pc, s', e⟩

end Sys2Proof.Machine
end

section
/-! PROOF. The frames of the instructions (10_state.md R32, R39, R40, R42), each read off the inversion rules above. -/

namespace Sys2Proof.Machine

open Sys2Proof.Statements

/-! Registers and FLAGS. -/

theorem sameRegsBut_setReg (s : State) (j : Fin 8) (v : Word) :
    SameRegsBut (regField j) s (s.setReg j v) :=
  fun r hr => reg_setReg_ne s j r v fun e => hr (e ▸ rfl)

theorem sameRegsBut_withResult (s : State) (j : Fin 8) (v pc : Word) :
    SameRegsBut (regField j) s (s.withResult j v pc) :=
  sameRegsBut_setReg s j v

theorem sameHighFlags_of_withZ {s t : State} {z : Bool} (h : t.flags = withZ s.flags z) :
    SameHighFlags s t := fun k hk => by
  rw [h, getLsbD_withZ_high _ _ _ hk]

theorem sameHighFlags_withResult (s : State) (j : Fin 8) (v pc : Word) :
    SameHighFlags s (s.withResult j v pc) :=
  sameHighFlags_of_withZ rfl

theorem toNat_regField_lt (i : Fin 8) : (regField i).toNat < 8 := by
  simp [regField]
  omega

theorem regField_injective {i j : Fin 8} (h : regField i = regField j) : i = j := by
  have := congrArg regIndex h
  simpa using this

theorem effAddr_eq_dataAddress (s : State) (b : Fin 8) (off : Half) :
    s.effAddr b off = dataAddress s b off := rfl

/-- The six instructions whose register result comes from registers and immediates end in the register fault or in a
result. -/
theorem exec_registerResult_next {s t : State} {i : Instr} {d : Byte}
    (hi : (∃ imm, i = .loadi d imm) ∨
      ∃ a b, i = .add d a b ∨ i = .sub d a b ∨ i = .and d a b ∨ i = .or d a b ∨ i = .xor d a b)
    (h : exec i s = .next t) :
    t = s.faulted .invalidRegister ∨ ∃ j v pc, d = regField j ∧ t = s.withResult j v pc := by
  obtain ⟨imm, rfl⟩ | ⟨a, b, hi⟩ := hi
  · exact (exec_loadi_next h).imp_right fun ⟨j, e⟩ => ⟨j, _, _, e⟩
  · have ha : ∃ f, aluOp f d a b s = .next t := by
      rcases hi with rfl | rfl | rfl | rfl | rfl <;> exact ⟨_, h⟩
    obtain ⟨f, ha⟩ := ha
    exact (aluOp_next ha).imp_right fun ⟨j, v, e⟩ => ⟨j, v, _, e⟩

/-- Settles O32: each of the six ends in the register fault, which writes nothing, or in a result. -/
theorem registerResultFrame : Obligations.RegisterResultFrame := by
  intro s t i d hi h
  rcases exec_registerResult_next hi h with rfl | ⟨j, v, pc, rfl, rfl⟩
  · exact ⟨fun _ _ => rfl, fun _ _ => rfl, rfl, fun _ => rfl, rfl, rfl, rfl,
      ⟨⟨rfl, rfl, rfl⟩, rfl⟩, nofun⟩
  · exact ⟨sameRegsBut_withResult s j v pc, sameHighFlags_withResult s j v pc, rfl, fun _ => rfl, rfl,
      rfl, rfl, ⟨⟨rfl, rfl, rfl⟩, rfl⟩, fun _ => rfl⟩

/-- Settles O33, by what each instruction's next state is: Z for CMP, the stream for OUT, the run state for HALT, and PC
alone for the jumps. -/
theorem noRegisterResultFrame : Obligations.NoRegisterResultFrame := by
  intro s t i hi h
  rcases hi with rfl | ⟨a, b, rfl⟩ | ⟨r, rfl⟩ | ⟨target, hi⟩
  · cases h
    exact ⟨fun _ => rfl, fun _ _ => rfl, fun _ => rfl, rfl, fun _ => rfl, rfl, fun _ => rfl, rfl,
      ⟨⟨rfl, rfl, rfl⟩, rfl⟩, fun hn => absurd rfl hn⟩
  · rcases exec_cmp_next h with rfl | ⟨z, rfl⟩
    · exact ⟨fun _ => rfl, fun _ _ => rfl, fun _ => rfl, rfl, fun _ => rfl, rfl, fun _ => rfl, rfl,
        ⟨⟨rfl, rfl, rfl⟩, rfl⟩, fun _ => nofun⟩
    · exact ⟨fun _ => rfl, sameHighFlags_of_withZ rfl, fun hn => absurd rfl hn, rfl, fun _ => rfl, rfl,
        fun _ => rfl, rfl, ⟨⟨rfl, rfl, rfl⟩, rfl⟩, fun _ _ => rfl⟩
  · rcases exec_out_next h with rfl | ⟨v, rfl⟩
    · exact ⟨fun _ => rfl, fun _ _ => rfl, fun _ => rfl, rfl, fun _ => rfl, rfl, fun _ => rfl, rfl,
        ⟨⟨rfl, rfl, rfl⟩, rfl⟩, fun _ => nofun⟩
    · exact ⟨fun _ => rfl, fun _ _ => rfl, fun _ => rfl, rfl, fun _ => rfl, rfl,
        fun hn => absurd rfl hn, rfl, ⟨⟨rfl, rfl, rfl⟩, rfl⟩, fun _ _ => rfl⟩
  · obtain ⟨pc, rfl⟩ := exec_jump_next hi h
    exact ⟨fun _ => rfl, fun _ _ => rfl, fun _ => rfl, rfl, fun _ => rfl, rfl, fun _ => rfl, rfl,
      ⟨⟨rfl, rfl, rfl⟩, rfl⟩, fun _ _ => rfl⟩

/-- Settles O34: the data read keeps all but the device log, and that too where it reads RAM. -/
theorem readingFrame : Obligations.ReadingFrame := by
  refine ⟨?load, ?pop, ?ret, ?inp⟩
  case load =>
    intro s t d b off h
    rcases exec_load_next h with rfl | ⟨j, i, v, s', rfl, rfl, hr, rfl⟩
    · exact ⟨fun _ _ => rfl, fun _ _ => rfl, rfl, fun _ => rfl, rfl, rfl,
        ⟨⟨rfl, rfl, rfl⟩, rfl⟩, nofun, fun _ _ _ => rfl⟩
    · obtain ⟨l, rfl, hl⟩ := memRead_frame hr
      refine ⟨sameRegsBut_withResult _ j v _, sameHighFlags_withResult _ j v _, rfl, fun _ => rfl, rfl,
        rfl, ⟨⟨rfl, rfl, rfl⟩, rfl⟩, fun _ => rfl, fun r hb ha => ?_⟩
      obtain rfl := regField_injective hb
      rw [effAddr_eq_dataAddress] at hl
      exact hl ha
  case pop =>
    intro s t d h
    rcases exec_pop_next h with ⟨c, rfl⟩ | ⟨j, v, s', rfl, hr, rfl⟩
    · exact ⟨fun _ _ => rfl, fun _ _ => rfl, fun _ => rfl, rfl, rfl,
        ⟨⟨rfl, rfl, rfl⟩, rfl⟩, nofun, fun _ => rfl⟩
    · obtain ⟨l, rfl, hl⟩ := memRead_frame hr
      exact ⟨sameRegsBut_withResult _ j v _, sameHighFlags_withResult _ j v _, fun _ => rfl, rfl, rfl,
        ⟨⟨rfl, rfl, rfl⟩, rfl⟩, fun _ => rfl, hl⟩
  case ret =>
    intro s t h
    rcases exec_ret_next h with rfl | ⟨v, s', hr, rfl⟩
    · exact ⟨fun _ => rfl, rfl, fun _ => rfl, rfl, rfl, ⟨⟨rfl, rfl, rfl⟩, rfl⟩, nofun, fun _ => rfl⟩
    · obtain ⟨l, rfl, hl⟩ := memRead_frame hr
      exact ⟨fun _ => rfl, rfl, fun _ => rfl, rfl, rfl, ⟨⟨rfl, rfl, rfl⟩, rfl⟩, fun _ => rfl, hl⟩
  case inp =>
    intro s t d h
    rcases exec_in_next h with rfl | ⟨-, rfl⟩ | ⟨rest, hi, rfl⟩ | ⟨j, v, rest, rfl, hi, rfl⟩
    · exact ⟨fun _ _ => rfl, fun _ _ => rfl, rfl, fun _ => rfl, rfl, rfl,
        ⟨⟨rfl, rfl, rfl⟩, rfl⟩, nofun, .inl rfl⟩
    · exact ⟨fun _ _ => rfl, fun _ _ => rfl, rfl, fun _ => rfl, rfl, rfl,
        ⟨⟨rfl, rfl, rfl⟩, rfl⟩, nofun, .inl rfl⟩
    · exact ⟨fun _ _ => rfl, fun _ _ => rfl, rfl, fun _ => rfl, rfl, rfl,
        ⟨⟨rfl, rfl, rfl⟩, rfl⟩, nofun, .inr ⟨_, hi⟩⟩
    · exact ⟨sameRegsBut_withResult _ j v _, sameHighFlags_withResult _ j v _, rfl, fun _ => rfl, rfl,
        rfl, ⟨⟨rfl, rfl, rfl⟩, rfl⟩, fun _ => rfl, .inr ⟨_, hi⟩⟩

/-- Settles O35: the data write keeps all but the four bytes in RAM, or the device log at a device. -/
theorem storingFrame : Obligations.StoringFrame := by
  refine ⟨?store, ?pushing, ?badRegister⟩
  case store =>
    intro s t b r off h
    rcases exec_store_next h with rfl | ⟨i, j, s', hb, -, hw, rfl⟩
    · exact ⟨fun _ => rfl, rfl, rfl, rfl, rfl, ⟨⟨rfl, rfl, rfl⟩, rfl⟩, nofun, fun _ _ => rfl,
        fun _ => rfl, fun _ _ => rfl⟩
    · obtain rfl := regField_injective hb
      obtain ⟨m, l, rfl, hout, hlog, hram⟩ := memWrite_frame hw
      rw [effAddr_eq_dataAddress] at hout hlog hram
      exact ⟨fun _ => rfl, rfl, rfl, rfl, rfl, ⟨⟨rfl, rfl, rfl⟩, rfl⟩, fun _ => rfl, hout, hlog, hram⟩
  case pushing =>
    intro s t i hi h
    rcases exec_pushing_next hi h with ⟨c, rfl⟩ | ⟨v, pc, s', hsp, hw, rfl⟩
    · exact ⟨fun _ => rfl, rfl, rfl, rfl, ⟨⟨rfl, rfl, rfl⟩, rfl⟩, nofun, fun _ _ => rfl,
        fun _ => rfl, fun _ _ => rfl⟩
    · obtain ⟨m, l, rfl, hout, hlog, hram⟩ := memWrite_frame hw
      rw [sp_sub_four hsp] at hout hlog hram
      exact ⟨fun _ => rfl, rfl, rfl, rfl, ⟨⟨rfl, rfl, rfl⟩, rfl⟩, fun _ => rfl, hout, hlog, hram⟩
  case badRegister =>
    intro s t b r off hbad h
    rcases exec_store_next h with rfl | ⟨i, j, s', rfl, rfl, -⟩
    · exact ⟨fun _ => rfl, fun _ => rfl, rfl, rfl, rfl⟩
    · have hi := toNat_regField_lt i
      have hj := toNat_regField_lt j
      omega

end Sys2Proof.Machine
end

section
/-! PROOF. What every step keeps: the setup, the high bits of FLAGS, and the invariant (10_state.md R42 to R51). -/

namespace Sys2Proof.Machine

open Sys2Proof.Statements

/-! The setup and FLAGS. -/

theorem InstrEnd.sameSetup {s t : State} (h : InstrEnd s t) : SameSetup s t := by
  cases h with
  | completed _ e => exact ⟨⟨e.cfg, e.devmap, e.bp⟩, e.mark⟩
  | fault | inputFailure | waiting => exact ⟨⟨rfl, rfl, rfl⟩, rfl⟩

theorem InstrEnd.sameHighFlags {s t : State} (h : InstrEnd s t) : SameHighFlags s t := by
  cases h with
  | completed _ e =>
    rcases e.flags with hf | ⟨z, hf⟩
    · exact fun _ _ => by rw [hf]
    · exact sameHighFlags_of_withZ hf
  | fault | inputFailure | waiting => exact fun _ _ => rfl

theorem step_sameSetup {s t : State} (h : step s = .next t) : SameSetup s t := by
  rcases step_next h with ⟨-, rfl⟩ | ⟨-, he⟩
  · exact ⟨⟨rfl, rfl, rfl⟩, rfl⟩
  · exact he.sameSetup

theorem step_sameHighFlags {s t : State} (h : step s = .next t) : SameHighFlags s t := by
  rcases step_next h with ⟨-, rfl⟩ | ⟨-, he⟩
  · exact fun _ _ => rfl
  · exact he.sameHighFlags

theorem exec_store_flags {s t : State} {b r : Byte} {off : Half}
    (h : exec (.store b r off) s = .next t) : t.flags = s.flags := by
  rcases exec_store_next h with rfl | ⟨i, j, s', -, -, hw, rfl⟩
  · rfl
  · obtain ⟨m, l, rfl, -⟩ := memWrite_frame hw
    rfl

/-- Settles O43, by what an instruction's end may change. -/
theorem stepKeepsTheSetup : Obligations.StepKeepsTheSetup :=
  fun _ _ => step_sameSetup

/-- Settles O44: the frames give FLAGS of each of the nine, and a step writes at most Z. -/
theorem onlyZIsEverWritten : Obligations.OnlyZIsEverWritten := by
  refine ⟨fun s t i hm h => ?_, fun _ _ => step_sameHighFlags⟩
  obtain ⟨-, hpushing, -⟩ := storingFrame
  obtain ⟨-, -, hret, -⟩ := readingFrame
  cases i with
  | store b r off => exact exec_store_flags h
  | push r =>
    obtain ⟨-, hf, -⟩ := hpushing s t _ (.inl ⟨r, rfl⟩) h
    exact hf
  | call target =>
    obtain ⟨-, hf, -⟩ := hpushing s t _ (.inr ⟨target, rfl⟩) h
    exact hf
  | ret =>
    obtain ⟨-, hf, -⟩ := hret s t h
    exact hf
  | jmp target | jz target | jnz target | out r | halt =>
    obtain ⟨-, -, hf, -⟩ := noRegisterResultFrame s t _ (by simp) h
    exact hf nofun
  | loadi | load | add | sub | and | or | xor | cmp | pop | inp => simp [Instr.mnemonic] at hm

/-! The invariant. -/

/-- What is left to show of an update that keeps the configuration, the device map and the breakpoints. -/
theorem inv_of_sameMaps {s t : State} (h : s.inv = true) (hm : SameMaps s t)
    (hwf : t.ram.wf = true) (hbelow : t.ram.below s.cfg.memSize = true) (hst : statusOk t = true) :
    t.inv = true := by
  obtain ⟨hcfg, hdev, hbp⟩ := hm
  obtain ⟨h1, -, -, h4, h5, h6, -⟩ := inv_iff.mp h
  have hmax : bpWithinMax t = bpWithinMax s := by simp only [bpWithinMax, hcfg, hbp]
  exact inv_iff.mpr ⟨hcfg ▸ h1, hwf, hcfg ▸ hbelow, hdev ▸ h4, hbp ▸ h5, hmax ▸ h6, hst⟩

/-- An update that also keeps RAM needs only a right status. -/
theorem inv_of_sameRam {s t : State} (h : s.inv = true) (hm : SameMaps s t) (hram : t.ram = s.ram)
    (hst : statusOk t = true) : t.inv = true := by
  obtain ⟨-, hwf, hbelow, -⟩ := inv_iff.mp h
  exact inv_of_sameMaps h hm (hram ▸ hwf) (hram ▸ hbelow) hst

theorem statusOk_of_inv {s : State} (h : s.inv = true) : statusOk s = true := by
  obtain ⟨-, -, -, -, -, -, hst⟩ := inv_iff.mp h
  exact hst

/-- An update of none of the invariant's fields keeps it. -/
theorem inv_of_sameStatus {s t : State} (h : s.inv = true) (hm : SameMaps s t) (hram : t.ram = s.ram)
    (hst : t.status = s.status) (hh : t.halted = s.halted) : t.inv = true := by
  have hok : statusOk t = statusOk s := by simp only [statusOk, hst, hh]
  exact inv_of_sameRam h hm hram (hok ▸ statusOk_of_inv h)

theorem statusOk_of_executed {s : State} (h : s.status = .executed) : statusOk s = true := by
  simp [statusOk, h]

theorem Effect.inv {s t : State} (e : Effect s t) (h : s.inv = true) : t.inv = true := by
  obtain ⟨-, hwf, hbelow, -⟩ := inv_iff.mp h
  have hm : SameMaps s t := ⟨e.cfg, e.devmap, e.bp⟩
  have hst := statusOk_of_executed e.status
  rcases e.ram with hr | ⟨a, v, ha, hr⟩
  · exact inv_of_sameRam h hm hr hst
  · exact inv_of_sameMaps h hm (hr ▸ wf_writeWord a v hwf) (hr ▸ below_writeWord v ha hbelow) hst

theorem InstrEnd.inv {s t : State} (he : InstrEnd s t) (hrun : s.halted = false) (h : s.inv = true) :
    t.inv = true := by
  cases he with
  | completed _ e => exact e.inv h
  | fault c => exact inv_of_sameRam h ⟨rfl, rfl, rfl⟩ rfl rfl
  | inputFailure rest => exact inv_of_sameRam h ⟨rfl, rfl, rfl⟩ rfl rfl
  | waiting => exact inv_of_sameRam h ⟨rfl, rfl, rfl⟩ rfl (by simp [statusOk, hrun])

theorem step_inv {s t : State} (h : s.inv = true) (hs : step s = .next t) : t.inv = true := by
  rcases step_next hs with ⟨hh, rfl⟩ | ⟨hrun, he⟩
  · exact inv_of_sameRam h ⟨rfl, rfl, rfl⟩ rfl hh
  · exact he.inv hrun h

/-- Settles O40: a step stores at most one word inside RAM, and its status follows how it ends. -/
theorem stepKeepsInvariant : Obligations.StepKeepsInvariant :=
  fun _ _ => step_inv

end Sys2Proof.Machine
end

section
/-! PROOF. What the host operations leave (10_state.md R33, R60, R61, R65): the register file, the invariant with the
parameters along every history, and halting. -/

namespace Sys2Proof.Machine

open Sys2Proof.Statements

/-! What a host operation that succeeds leaves. -/

theorem hostSetReg_of_lt (s : State) (i : Fin 8) (v : Word) : setReg i.val v s = .ok (s.setReg i v) :=
  dif_pos i.isLt

theorem hostSetReg_of_ge (s : State) {i : Nat} (v : Word) (h : 8 ≤ i) :
    setReg i v s = .error .badRegisterIndex :=
  dif_neg (by omega)

theorem getReg_of_lt (s : State) (i : Fin 8) : getReg i.val s = .ok (s.reg i) :=
  dif_pos i.isLt

theorem getReg_of_ge (s : State) {i : Nat} (h : 8 ≤ i) : getReg i s = .error .badRegisterIndex :=
  dif_neg (by omega)

theorem hostSetReg_ok {s t : State} {i : Nat} {v : Word} (h : setReg i v s = .ok t) :
    ∃ j : Fin 8, t = s.setReg j v := by
  by_cases hi : i < 8
  · rw [hostSetReg_of_lt s ⟨i, hi⟩ v] at h
    cases h
    exact ⟨_, rfl⟩
  · rw [hostSetReg_of_ge s v (by omega)] at h
    cases h

theorem hostMemWrite_ok {s t : State} {a : Nat} {bs : List Byte} (h : hostMemWrite a bs s = .ok t) :
    a + bs.length ≤ s.cfg.memSize ∧ t = { s with ram := s.ram.writeBytes a bs } := by
  unfold hostMemWrite at h
  split at h
  · cases h
  · cases h
    exact ⟨by omega, rfl⟩

theorem addBreakpoint_ok {s t : State} {a : Word} (h : addBreakpoint a s = .ok t) :
    t = s ∨ (s.bpIsFull = false ∧ t = { s with bp := insertAddr a s.bp }) := by
  unfold addBreakpoint at h
  split at h
  · cases h
    exact .inl rfl
  · split at h
    · cases h
    · rename_i hfull
      cases h
      exact .inr ⟨by simpa using hfull, rfl⟩

theorem registerDevice_ok {s t : State} {m : DeviceMapping} (h : registerDevice m s = .ok t) :
    (∀ n ∈ s.devmap, n.overlaps m = false) ∧ 0 < m.size ∧ m.base.toNat + m.size ≤ 2 ^ 32 ∧
      t = { s with devmap := s.devmap ++ [m] } := by
  unfold registerDevice at h
  split at h
  · cases h
  · rename_i ho
    split at h
    · cases h
    · cases h
      exact ⟨by simpa using ho, by omega, by omega, rfl⟩

theorem loadSnapshot_ok {s t : State} {bs : List Byte} (h : loadSnapshot bs s = .ok t) :
    checkSnapshot s.cfg bs = none ∧ t = restoredState bs s := by
  unfold loadSnapshot at h
  split at h
  · cases h
  · rename_i hc
    cases h
    exact ⟨hc, rfl⟩

theorem opResult_returned {r : Except HostError State} {q : Reply} {t : State}
    (h : opResult r = .returned q t) : r = .ok t := by
  cases r <;> cases h
  rfl

/-! The register accessors. -/

/-- Settles O59: both accessors branch on the index being below 8 and on nothing else. -/
theorem registerAccessors : Obligations.RegisterAccessors :=
  ⟨fun s i v => ⟨getReg_of_lt s i, s.setReg i v, hostSetReg_of_lt s i v, reg_setReg_self s i v,
      sameRegsBut_setReg s i v, rfl⟩,
    fun s _ v hi => ⟨getReg_of_ge s hi, hostSetReg_of_ge s v hi⟩⟩

/-! Construction and reset. -/

theorem reg_of_cleared {t : State} (h : t.x = Vector.replicate 8 0) (i : Fin 8) : t.reg i = 0 := by
  simp [State.reg, h]

/-- Settles O46: construction, powerOn and a program load all clear the register file. -/
theorem registersAreZeroAfterReset : Obligations.RegistersAreZeroAfterReset := by
  intro i
  refine ⟨reg_of_cleared rfl i, fun _ _ => reg_of_cleared rfl i, fun _ => reg_of_cleared rfl i, ?_⟩
  intro s t bytes h
  obtain ⟨payload, entry, -, -, rfl⟩ := loadProgramBytes_ok h
  rw [loadedState_eq]
  exact reg_of_cleared rfl i

theorem inv_construct {cfg : Config} (h : configOk cfg = true) (initRam : List Byte) :
    (construct cfg initRam).inv = true := by
  have hbelow : (Memory.ofBytes 0 (initRam.take cfg.memSize)).below cfg.memSize = true :=
    below_ofBytes (by simp)
  have hmax : bpWithinMax (construct cfg initRam) = true := by
    unfold bpWithinMax
    split <;> simp [construct]
  exact inv_iff.mpr ⟨h, wf_ofBytes _ _, hbelow, rfl, rfl, hmax, rfl⟩

/-- Settles O41: the reset state is a construction, with the default parameters and no INIT_RAM. -/
theorem resetMeetsInvariant : Obligations.ResetMeetsInvariant :=
  inv_construct (cfg := defaultConfig) (by decide) []

/-! The invariant after a host operation. -/

theorem inv_loadProgramBytes {s t : State} {bytes : List Byte} (h : s.inv = true)
    (hl : loadProgramBytes bytes s = .ok t) : t.inv = true := by
  obtain ⟨payload, entry, -, hlen, rfl⟩ := loadProgramBytes_ok hl
  rw [loadedState_eq]
  exact inv_of_sameMaps h ⟨rfl, rfl, rfl⟩ (wf_ofBytes _ _) (below_ofBytes (by omega)) rfl

theorem inv_hostMemWrite {s t : State} {a : Nat} {bs : List Byte} (h : s.inv = true)
    (hw : hostMemWrite a bs s = .ok t) : t.inv = true := by
  obtain ⟨hlen, rfl⟩ := hostMemWrite_ok hw
  obtain ⟨-, hwf, hbelow, -⟩ := inv_iff.mp h
  have hst := statusOk_of_inv h
  exact inv_of_sameMaps h ⟨rfl, rfl, rfl⟩ (wf_writeBytes a bs hwf) (below_writeBytes bs hlen hbelow) hst

theorem inv_loadSnapshot {s t : State} {bs : List Byte} (h : s.inv = true)
    (hl : loadSnapshot bs s = .ok t) : t.inv = true := by
  obtain ⟨hc, rfl⟩ := loadSnapshot_ok hl
  obtain ⟨hlen, -⟩ := checkSnapshot_eq_none.mp hc
  refine inv_of_sameMaps h ⟨rfl, rfl, rfl⟩ (wf_ofBytes _ _) (below_ofBytes ?_) rfl
  rw [List.length_drop]
  omega

theorem length_insertAddr_le_of_not_full {s : State} {a : Word} {n : Nat} (hmax : s.cfg.bpMax = some n)
    (hf : s.bpIsFull = false) : (insertAddr a s.bp).length ≤ n := by
  have hroom : s.bp.length < n := by simpa [State.bpIsFull, hmax] using hf
  have hlen := length_insertAddr a s.bp
  omega

theorem inv_addBreakpoint {s t : State} {a : Word} (h : s.inv = true)
    (ha : addBreakpoint a s = .ok t) : t.inv = true := by
  rcases addBreakpoint_ok ha with rfl | ⟨hf, rfl⟩
  · exact h
  · obtain ⟨h1, h2, h3, h4, h5, -, h7⟩ := inv_iff.mp h
    refine inv_iff.mpr ⟨h1, h2, h3, h4, bpOk_insertAddr h5, ?_, h7⟩
    unfold bpWithinMax
    split
    · rfl
    · exact decide_eq_true (length_insertAddr_le_of_not_full ‹_› hf)

theorem inv_removeBreakpoint {s : State} (a : Word) (h : s.inv = true) :
    (removeBreakpoint a s).inv = true := by
  obtain ⟨h1, h2, h3, h4, h5, h6, h7⟩ := inv_iff.mp h
  refine inv_iff.mpr ⟨h1, h2, h3, h4, bpOk_filter h5, ?_, h7⟩
  unfold bpWithinMax at h6 ⊢
  split
  · rfl
  · rename_i n hmax
    have hlen : s.bp.length ≤ n := by simpa [show s.cfg.bpMax = some n from hmax] using h6
    exact decide_eq_true ((List.length_filter_le _ _).trans hlen)

theorem inv_registerDevice {s t : State} {m : DeviceMapping} (h : s.inv = true)
    (hr : registerDevice m s = .ok t) : t.inv = true := by
  obtain ⟨hover, hpos, hend, rfl⟩ := registerDevice_ok hr
  obtain ⟨h1, h2, h3, h4, h5, h6, h7⟩ := inv_iff.mp h
  exact inv_iff.mpr ⟨h1, h2, h3, devmapOk_append h4 hover hpos hend, h5, h6, h7⟩

/-- The state meets the invariant and has the parameters `cfg`: what is kept along every history of a machine. -/
def MeetsInvariant (cfg : Config) (s : State) : Prop :=
  s.inv = true ∧ s.cfg = cfg

/-- Every host operation keeps the invariant and the parameters, whether it returns or is pending. -/
theorem host_meetsInvariant {cfg : Config} {s : State} (h : MeetsInvariant cfg s) (turns : Nat)
    (op : HostOp) (t : State) :
    (∀ r, host turns op s = .returned r t → MeetsInvariant cfg t) ∧
      (host turns op s = .pending t → MeetsInvariant cfg t) := by
  apply host_keeps (MeetsInvariant cfg) (h := h)
  case hstep =>
    rintro s t ⟨hi, hc⟩ hs
    obtain ⟨⟨hcfg, -⟩, -⟩ := step_sameSetup hs
    exact ⟨step_inv hi hs, hcfg.trans hc⟩
  case hfault =>
    rintro s f ⟨hi, hc⟩
    rw [afterFault_eq]
    exact ⟨inv_of_sameStatus hi ⟨rfl, rfl, rfl⟩ rfl rfl rfl, hc⟩
  case hmark =>
    rintro s ⟨hi, hc⟩
    exact ⟨inv_of_sameStatus hi ⟨rfl, rfl, rfl⟩ rfl rfl rfl, hc⟩
  case hpow =>
    rintro s ⟨hi, hc⟩
    exact ⟨inv_of_sameRam hi ⟨rfl, rfl, rfl⟩ rfl rfl, hc⟩
  case hload =>
    rintro s t b ⟨hi, hc⟩ hl
    refine ⟨inv_loadProgramBytes hi hl, ?_⟩
    obtain ⟨payload, entry, -, -, rfl⟩ := loadProgramBytes_ok hl
    rwa [loadedState_eq]
  case hset =>
    rintro s t i v ⟨hi, hc⟩ hs
    obtain ⟨j, rfl⟩ := hostSetReg_ok hs
    exact ⟨inv_of_sameStatus hi ⟨rfl, rfl, rfl⟩ rfl rfl rfl, hc⟩
  case hwrite =>
    rintro s t a bs ⟨hi, hc⟩ hw
    refine ⟨inv_hostMemWrite hi hw, ?_⟩
    obtain ⟨-, rfl⟩ := hostMemWrite_ok hw
    exact hc
  case hadd =>
    rintro s t a ⟨hi, hc⟩ ha
    refine ⟨inv_addBreakpoint hi ha, ?_⟩
    rcases addBreakpoint_ok ha with rfl | ⟨-, rfl⟩ <;> exact hc
  case hrem =>
    rintro s a ⟨hi, hc⟩
    exact ⟨inv_removeBreakpoint a hi, hc⟩
  case hsnap =>
    rintro s t b ⟨hi, hc⟩ hl
    refine ⟨inv_loadSnapshot hi hl, ?_⟩
    obtain ⟨-, rfl⟩ := loadSnapshot_ok hl
    exact hc
  case hdev =>
    rintro s t m ⟨hi, hc⟩ hr
    refine ⟨inv_registerDevice hi hr, ?_⟩
    obtain ⟨-, -, -, rfl⟩ := registerDevice_ok hr
    exact hc

/-- Settles O42, by induction on how the state is reached. -/
theorem reachableStatesMeetInvariant : Obligations.ReachableStatesMeetInvariant := by
  intro cfg s hcfg hs
  change MeetsInvariant cfg s
  induction hs with
  | constructed initRam => exact ⟨inv_construct hcfg initRam, rfl⟩
  | stepped s t _ hst ih =>
    obtain ⟨hi, hc⟩ := ih
    obtain ⟨⟨hsame, -⟩, -⟩ := step_sameSetup hst
    exact ⟨step_inv hi hst, hsame.trans hc⟩
  | operated s t turns op r _ ho ih => exact (host_meetsInvariant ih turns op t).1 r ho
  | pending s t turns op _ ho ih => exact (host_meetsInvariant ih turns op t).2 ho
  | supplied s a _ ih =>
    obtain ⟨hi, hc⟩ := ih
    exact ⟨inv_of_sameStatus hi ⟨rfl, rfl, rfl⟩ rfl rfl rfl, hc⟩

/-! Halting (10_state.md R44). -/

theorem step_of_halted {s : State} (h : s.halted = true) :
    step s = .next { s with status := .alreadyHalted } :=
  if_pos h

/-- A run call on a halted machine stops before its first step (40_cycle.md R181). -/
theorem runLoop_of_halted {s : State} (h : s.halted = true) (bpMode : Bool) (limit : Option Nat)
    (turns count : Nat) :
    runLoop bpMode limit turns count s = { state := s, steps := count, stop := some .stopHalted } := by
  have hs : stopBefore bpMode limit count s = some .stopHalted := if_pos h
  cases turns <;> simp [runLoop, hs]

theorem runSteps_of_halted {s : State} (h : s.halted = true) (n turns : Nat) :
    (runSteps n turns s).state = s := by
  unfold runSteps
  split <;> simp [cpuRun, runLoop_of_halted h]

theorem runUntilHalt_of_halted {s : State} (h : s.halted = true) (turns : Nat) :
    (runUntilHalt turns s).state = s := by
  unfold runUntilHalt
  split <;> simp [cpuRun, runLoop_of_halted h]

theorem ofRun_returned {r : RunResult} {q : Reply} {t : State} (h : ofRun r = .returned q t) :
    t = r.state := by
  unfold ofRun at h
  split at h <;> cases h
  rfl

theorem cpuStep_of_halted {s t : State} {q : Reply} (h : s.halted = true)
    (hs : cpuStep s = .returned q t) : t = { s with status := .alreadyHalted } := by
  simp only [cpuStep, step_of_halted h, outcomeOf] at hs
  cases hs
  rfl

theorem host_returned {turns : Nat} {op : HostOp} {s t : State} {q : Reply}
    (h : host turns op s = .returned q t) : hostOp turns op s = .returned q t := by
  unfold host at h
  split at h
  · cases h
  · exact h

/-- A halted machine stays halted in every host operation that returns, but for a reset, a load and a restore: a step and
a run do nothing, a reader changes nothing, and a writer does not write the run state. -/
theorem hostOp_of_halted {turns : Nat} {op : HostOp} {s t : State} {q : Reply} (hh : s.halted = true)
    (h : hostOp turns op s = .returned q t) :
    (op = .powerOn ∨ (∃ bytes, op = .loadProgramBytes bytes) ∨ ∃ bytes, op = .loadSnapshot bytes) ∨
      t.halted = true := by
  cases op with
  | powerOn => exact .inl (.inl rfl)
  | loadProgramBytes bytes => exact .inl (.inr (.inl ⟨bytes, rfl⟩))
  | loadSnapshot bytes => exact .inl (.inr (.inr ⟨bytes, rfl⟩))
  | runUntilHalt =>
    rw [ofRun_returned h, runUntilHalt_of_halted hh]
    exact .inr hh
  | runSteps n =>
    rw [ofRun_returned h, runSteps_of_halted hh]
    exact .inr hh
  | cpuRun n =>
    rw [ofRun_returned h, cpuRun, runLoop_of_halted hh]
    exact .inr hh
  | cpuStep =>
    rw [cpuStep_of_halted hh h]
    exact .inr hh
  | setReg i v =>
    obtain ⟨j, rfl⟩ := hostSetReg_ok (opResult_returned h)
    exact .inr hh
  | memWrite a bs =>
    obtain ⟨-, rfl⟩ := hostMemWrite_ok (opResult_returned h)
    exact .inr hh
  | addBreakpoint a =>
    rcases addBreakpoint_ok (opResult_returned h) with rfl | ⟨-, rfl⟩ <;> exact .inr hh
  | registerDevice m =>
    obtain ⟨-, -, -, rfl⟩ := registerDevice_ok (opResult_returned h)
    exact .inr hh
  | removeBreakpoint a | getPC | getSP | getFlags | isHalted | breakpoints | saveSnapshot =>
    cases h
    exact .inr hh
  | getReg i | memRead a n | disassemble a =>
    unfold hostOp at h
    dsimp only at h
    split at h <;> cases h <;> exact .inr hh

/-- Settles O45: a step of a halted machine only reports, and only a reset, a load or a restore writes the run state
back. -/
theorem haltedIsTerminal : Obligations.HaltedIsTerminal := by
  refine ⟨fun s t hh hs => ?_, fun s t turns op q hh hr hrun => ?_⟩
  · rw [step_of_halted hh] at hs
    cases hs
    exact hh
  · exact (hostOp_of_halted hh (host_returned hr)).resolve_right (by simp [hrun])

end Sys2Proof.Machine
end

section
/-! PROOF. The bus, words in RAM, and the host's raw accesses and registrations (20_memory.md R72 to R85). -/

namespace Sys2Proof.Machine

open Sys2Proof.Statements

/-! Routing (R72). -/

theorem contains_iff {m : DeviceMapping} {a : Nat} :
    m.contains a = true ↔ m.base.toNat ≤ a ∧ a < m.base.toNat + m.size := by
  simp [DeviceMapping.contains]

theorem resolve_of_window {devmap : List DeviceMapping} (h : devmapOk devmap = true)
    {m : DeviceMapping} {a : Nat} (hm : m ∈ devmap) (hc : m.contains a = true) :
    resolve devmap a = .device m.dev (a - m.base.toNat) := by
  simp only [resolve, find_window h hm hc]

/-- Settles O37: windows of a legal map are disjoint, so the scan finds the one that contains the address. -/
theorem busRoutesByStartAddress : Obligations.BusRoutesByStartAddress := by
  intro devmap a h
  refine ⟨fun m hm hlo hhi => resolve_of_window h hm (contains_iff.mpr ⟨hlo, hhi⟩), fun hout => ?_⟩
  refine resolve_eq_ram.mpr fun m hm => ?_
  rw [← Bool.not_eq_true, contains_iff]
  exact hout m hm

/-! Words in RAM (R75). -/

theorem holdsWord_of_writeWord {t : State} {m : Memory} {a : Nat} {v : Word} (hwf : m.wf = true)
    (h : t.ram = m.writeWord a v) : HoldsWord t a v := by
  have hbyte : ∀ k, k < 4 → t.ram.read (a + k) = byteOf v k := fun k hk => by
    rw [h, read_writeWord a (a + k) v hwf, if_pos (by omega), Nat.add_sub_cancel_left]
    rfl
  exact ⟨hbyte 0 (by omega), hbyte 1 (by omega), hbyte 2 (by omega), hbyte 3 (by omega)⟩

theorem memRead_writeWord {s : State} {addr : Word} (v : Word) (hwf : s.ram.wf = true)
    (hr : resolve s.devmap addr.toNat = .ram) (hb : addr.toNat + 4 ≤ s.cfg.memSize) :
    State.memRead { s with ram := s.ram.writeWord addr.toNat v } addr =
      .ok (v, { s with ram := s.ram.writeWord addr.toNat v }) := by
  rw [memRead_ram (s := { s with ram := s.ram.writeWord addr.toNat v }) hr hb,
    readWord_writeWord _ _ hwf]

/-- Settles O36: both accesses reach RAM, where a word written is there byte by byte and is the word read. -/
theorem wordsAreLittleEndian : Obligations.WordsAreLittleEndian := by
  intro s addr v hwf hr hb
  exact ⟨_, memWrite_ram hr hb, holdsWord_of_writeWord hwf rfl, memRead_writeWord v hwf hr hb⟩

/-! The host's raw accesses (R85). -/

theorem hostMemRead_inside {s : State} {addr len : Nat} (h : addr + len ≤ s.cfg.memSize) :
    hostMemRead addr len s = .ok (s.ram.readBytes addr len) :=
  if_neg (by omega)

theorem hostMemWrite_inside {s : State} {addr : Nat} {bs : List Byte}
    (h : addr + bs.length ≤ s.cfg.memSize) :
    hostMemWrite addr bs s = .ok { s with ram := s.ram.writeBytes addr bs } :=
  if_neg (by omega)

theorem readBytes_writeBytes {m : Memory} (a : Nat) (bs : List Byte) (h : m.wf = true) :
    (m.writeBytes a bs).readBytes a bs.length = bs := by
  refine readBytes_eq rfl fun k hk => ?_
  rw [read_writeBytes a (a + k) bs h, if_pos (by omega), Nat.add_sub_cancel_left]

theorem hostMemRead_writeBytes {s : State} {addr : Nat} {bs : List Byte} (hwf : s.ram.wf = true)
    (h : addr + bs.length ≤ s.cfg.memSize) :
    hostMemRead addr bs.length { s with ram := s.ram.writeBytes addr bs } = .ok bs := by
  rw [hostMemRead_inside (s := { s with ram := s.ram.writeBytes addr bs }) h,
    readBytes_writeBytes addr bs hwf]

/-- Settles O57: both accesses branch on the end of RAM and on nothing else, and a byte string written reads back. -/
theorem hostMemoryAccess : Obligations.HostMemoryAccess := by
  refine ⟨fun s addr len h => if_pos h, fun s addr len h => ?read, fun s addr bs h => if_pos h,
    fun s addr bs hwf h => ?write⟩
  case read =>
    exact ⟨_, hostMemRead_inside h, length_readBytes _ _ _, fun k hk => getD_readBytes _ _ _ k hk⟩
  case write =>
    exact ⟨_, hostMemWrite_inside h, hostMemRead_writeBytes hwf h,
      fun a ha => read_writeBytes_away _ bs ha, rfl⟩

/-! Registration (R80). -/

theorem overlaps_iff {m n : DeviceMapping} :
    m.overlaps n = true ↔
      n.base.toNat < m.base.toNat + m.size ∧ m.base.toNat < n.base.toNat + n.size := by
  simp [DeviceMapping.overlaps]

/-- Settles O58: the overlap is tested first, then the range. -/
theorem deviceRegistration : Obligations.DeviceRegistration := by
  intro s n
  refine ⟨fun ⟨m, hm, ho⟩ => ?overlap, fun hdis => ?disjoint⟩
  case overlap =>
    have hany : s.devmap.any (fun old => old.overlaps n) = true :=
      List.any_eq_true.mpr ⟨m, hm, overlaps_iff.mpr ho⟩
    exact if_pos hany
  case disjoint =>
    have hany : ¬ s.devmap.any (fun old => old.overlaps n) = true := by
      rw [List.any_eq_true]
      exact fun ⟨m, hm, ho⟩ => hdis m hm (overlaps_iff.mp ho)
    exact ⟨fun hbad => (if_neg hany).trans (if_pos hbad),
      fun hpos hend => (if_neg hany).trans (if_neg (by omega))⟩

end Sys2Proof.Machine
end

section
/-! PROOF. Data accesses through a device window (20_memory.md R71, R76, R77): each instruction that accesses memory,
given what the bus answers it. -/

namespace Sys2Proof.Machine

open Sys2Proof.Statements

/-! The result an instruction leaves. -/

@[simp] theorem withResult_reg (s : State) (j : Fin 8) (v pc : Word) :
    (s.withResult j v pc).reg j = v :=
  reg_setReg_self s j v

@[simp] theorem withResult_z (s : State) (j : Fin 8) (v pc : Word) :
    (s.withResult j v pc).z = decide (v = 0) :=
  z_setZ s v

/-! The instructions by the answer of the bus. -/

theorem exec_load_of_memRead {s s' : State} {d b : Fin 8} {off : Half} {v : Word}
    (h : s.memRead (s.effAddr b off) = .ok (v, s')) :
    exec (.load (regField d) (regField b) off) s = .next (s'.withResult d v (s'.pc + 5)) := by
  rw [exec_load, h]
  rfl

theorem exec_load_of_error {s : State} {b : Fin 8} {off : Half} {e : Fault} (d : Fin 8)
    (h : s.memRead (s.effAddr b off) = .error e) :
    exec (.load (regField d) (regField b) off) s = .fault e := by
  rw [exec_load, h]

theorem exec_store_of_memWrite {s s' : State} {b r : Fin 8} {off : Half}
    (h : s.memWrite (s.effAddr b off) (s.reg r) = .ok s') :
    exec (.store (regField b) (regField r) off) s = s'.advance 5 := by
  rw [exec_store, h]

theorem exec_store_of_error {s : State} {b r : Fin 8} {off : Half} {e : Fault}
    (h : s.memWrite (s.effAddr b off) (s.reg r) = .error e) :
    exec (.store (regField b) (regField r) off) s = .fault e := by
  rw [exec_store, h]

theorem exec_pop_of_memRead {s s' : State} {d : Fin 8} {v : Word}
    (hsp : s.sp.toNat + 4 ≤ s.cfg.memSize) (h : s.memRead s.sp = .ok (v, s')) :
    exec (.pop (regField d)) s =
      .next ({ s' with sp := s.sp + 4 }.withResult d v (s'.pc + 2)) := by
  rw [exec_pop, popWord_of_memRead _ hsp h]
  rfl

theorem exec_ret_of_memRead {s s' : State} {v : Word}
    (hsp : s.sp.toNat + 4 ≤ s.cfg.memSize) (h : s.memRead s.sp = .ok (v, s')) :
    exec .ret s = .next { s' with sp := s.sp + 4, pc := v, status := .executed } := by
  rw [exec_ret, popWord_of_memRead _ hsp h]
  rfl

/-! LOAD and STORE. -/

/-- Settles O15, by the device's answer to the one access. -/
theorem loadAndStoreThroughADevice : Obligations.LoadAndStoreThroughADevice := by
  refine ⟨fun s d b off dev o hr => ?load, fun s b r off dev o hr => ?store⟩
  case load =>
    rw [← effAddr_eq_dataAddress] at hr
    cases hv : Config.deviceRead s.devLog dev o with
    | value v =>
      exact ⟨_, exec_load_of_memRead (memRead_device_value hr hv), rfl, withResult_reg _ d v _,
        withResult_z _ d v _, rfl, rfl⟩
    | failure => exact exec_load_of_error d (memRead_device_failure hr hv)
  case store =>
    rw [← effAddr_eq_dataAddress] at hr
    cases hv : Config.deviceAccepts s.devLog dev o (s.reg r) with
    | true =>
      exact ⟨_, exec_store_of_memWrite (memWrite_device_accepts hr hv), rfl, fun _ => rfl, rfl, rfl,
        rfl⟩
    | false => exact exec_store_of_error (memWrite_device_fails hr hv)

/-! The stack. -/

/-- What PUSH and CALL share at a device window: an accepted word is one access and leaves RAM alone. -/
theorem pushWord_device_accepts {s : State} {v : Word} {dev o : Nat} (pc : Word)
    (hsp : 4 ≤ s.sp.toNat) (hr : resolve s.devmap (s.sp.toNat - 4) = .device dev o)
    (hv : Config.deviceAccepts s.devLog dev o v = true) :
    ∃ t, s.pushWord v pc = .next t ∧ t.status = .executed ∧ SameBytes s t ∧
      t.sp.toNat = s.sp.toNat - 4 ∧ t.devLog = s.devLog ++ [.write dev o v] ∧ t.pc = pc := by
  rw [← sp_sub_four hsp] at hr
  exact ⟨_, pushWord_of_memWrite hsp (memWrite_device_accepts hr hv), rfl, fun _ => rfl,
    sp_sub_four hsp, rfl, rfl⟩

theorem pushWord_device_fails {s : State} {v : Word} {dev o : Nat} (pc : Word)
    (hsp : 4 ≤ s.sp.toNat) (hr : resolve s.devmap (s.sp.toNat - 4) = .device dev o)
    (hv : Config.deviceAccepts s.devLog dev o v = false) : s.pushWord v pc = .fault .deviceFault := by
  rw [← sp_sub_four hsp] at hr
  exact pushWord_of_error hsp (memWrite_device_fails hr hv)

/-- Settles O24, by the device's answer to the one access of each instruction. -/
theorem stackThroughADevice : Obligations.StackThroughADevice := by
  refine ⟨fun s r dev o hsp hr => ?push, fun s target dev o hsp hr => ?call,
    fun s d dev o hsp hmem hr => ?pop, fun s dev o hsp hmem hr => ?ret⟩
  case push =>
    rw [exec_push]
    cases hv : Config.deviceAccepts s.devLog dev o (s.reg r) with
    | true => exact pushWord_device_accepts _ hsp hr hv
    | false => exact pushWord_device_fails _ hsp hr hv
  case call =>
    rw [exec_call]
    cases hv : Config.deviceAccepts s.devLog dev o (s.pc + 5) with
    | true => exact pushWord_device_accepts _ hsp hr hv
    | false => exact pushWord_device_fails _ hsp hr hv
  case pop =>
    cases hv : Config.deviceRead s.devLog dev o with
    | value v =>
      exact ⟨_, exec_pop_of_memRead hsp (memRead_device_value hr hv), rfl, withResult_reg _ d v _,
        withResult_z _ d v _, sp_add_four (by omega), rfl, rfl⟩
    | failure =>
      exact (exec_pop s d).trans (popWord_of_error _ hsp (memRead_device_failure hr hv))
  case ret =>
    cases hv : Config.deviceRead s.devLog dev o with
    | value v =>
      exact ⟨_, exec_ret_of_memRead hsp (memRead_device_value hr hv), rfl, rfl,
        sp_add_four (by omega), rfl⟩
    | failure => exact (exec_ret s).trans (popWord_of_error _ hsp (memRead_device_failure hr hv))

end Sys2Proof.Machine
end

section
/-! PROOF. Fetch from a device window, and the mark a refusal leaves on the run (20_memory.md R84, 60_exceptions.md R305,
40_cycle.md R180). -/

namespace Sys2Proof.Machine

open Sys2Proof.Statements

/-! Fetch (R84). -/

theorem documentedSize_eq_size (mn : Mnemonic) : documentedSize mn = mn.size := by
  cases mn <;> rfl

theorem fetchByte_ram {s : State} {a : Nat} (h : resolve s.devmap a = .ram) :
    s.fetchByte a = some (s.ram.read a) := by
  simp only [State.fetchByte, h]

/-- One byte in a window is enough for none to be fetched. -/
theorem fetchBytes_device {s : State} {a n k : Nat} (hk : k < n)
    (h : resolve s.devmap (a + k) ≠ .ram) : s.fetchBytes a n = none := by
  induction n generalizing a k with
  | zero => omega
  | succ n ih =>
    unfold State.fetchBytes
    cases k with
    | zero => rw [fetchByte_device (a := a) h]
    | succ k =>
      rw [show a + (k + 1) = a + 1 + k by omega] at h
      rw [ih (by omega) h]
      cases s.fetchByte a <;> rfl

theorem step_of_decodeAt_error {s : State} {e : FetchStop} (hh : s.halted = false)
    (hd : s.decodeAt s.pc.toNat = .error e) : step s = e.stop := by
  simp [step, State.cycle, hh, hd]

theorem decodeAt_opcode_device {s : State} {pc : Nat} (hpc : pc < s.cfg.memSize)
    (hr : resolve s.devmap pc ≠ .ram) : s.decodeAt pc = .error .deviceFetch := by
  rw [State.decodeAt, if_neg (by omega), fetchByte_device hr]

theorem decodeAt_operand_device {s : State} {pc k : Nat} {mn : Mnemonic}
    (hm : s.cfg.opcodes.injective = true) (hr : resolve s.devmap pc = .ram)
    (hop : s.ram.read pc = s.cfg.opcodes.code mn) (hfit : pc + mn.size ≤ s.cfg.memSize)
    (hk : k < mn.size) (hdev : resolve s.devmap (pc + k) ≠ .ram) :
    s.decodeAt pc = .error .deviceFetch := by
  have hsize := size_pos mn
  simp only [State.decodeAt, if_neg (show ¬ pc ≥ s.cfg.memSize by omega), fetchByte_ram hr, hop,
    lookup_code hm, if_neg (show ¬ pc + mn.size > s.cfg.memSize by omega), fetchBytes_device hk hdev]

/-! The mark (R305). -/

theorem stopBefore_ne_abort {bpMode : Bool} {limit : Option Nat} {count : Nat} {s : State}
    (o : StepOutcome) : stopBefore bpMode limit count s ≠ some (.abort o) := by
  unfold stopBefore
  split_ifs <;> nofun

theorem runLoop_refused_marks {bpMode : Bool} {limit : Option Nat} {turns count : Nat} {s : State}
    {q : Refusal} (h : (runLoop bpMode limit turns count s).stop = some (.abort (.refused q))) :
    (runLoop bpMode limit turns count s).state.refusalMark = true := by
  induction turns generalizing count s with
  | zero => exact absurd h (stopBefore_ne_abort _)
  | succ n ih =>
    unfold runLoop at h ⊢
    cases hs : stopBefore bpMode limit count s with
    | some r =>
      simp only [hs] at h
      exact absurd (hs.trans h) (stopBefore_ne_abort _)
    | none =>
      cases ht : step s with
      | next t =>
        simp only [hs, ht] at h ⊢
        split at h
        · cases h
        · rename_i hw
          rw [if_neg hw]
          exact ih h
      | fault f => simp [hs, ht] at h
      | refused r => rfl

theorem unmarked_of_runsClean {k : Nat} {s t : State} (h : runsClean k s t) :
    s.refusalMark = false := by
  induction k generalizing s with
  | zero => exact h.2
  | succ k ih =>
    obtain ⟨u, hs, -, hu⟩ := h
    obtain ⟨-, hmark⟩ := step_sameSetup hs
    rw [← hmark, ih hu]

theorem not_runsClean_of_marked {s : State} (h : s.refusalMark = true) (k : Nat) (t : State) :
    ¬ runsClean k s t := fun hr =>
  absurd (unmarked_of_runsClean hr) (by simp [h])

/-- No host operation takes the mark back, whether it returns or is pending. -/
theorem host_keeps_refusalMark {s : State} (h : s.refusalMark = true) (turns : Nat) (op : HostOp)
    (t : State) :
    (∀ r, host turns op s = .returned r t → t.refusalMark = true) ∧
      (host turns op s = .pending t → t.refusalMark = true) := by
  apply host_keeps (fun s => s.refusalMark = true) (h := h)
  case hstep =>
    intro s t h hs
    obtain ⟨-, hmark⟩ := step_sameSetup hs
    exact hmark.trans h
  case hfault =>
    intro s f h
    rwa [afterFault_eq]
  case hmark => exact fun _ _ => rfl
  case hpow => exact fun _ h => h
  case hload =>
    intro s t b h hl
    obtain ⟨payload, entry, -, -, rfl⟩ := loadProgramBytes_ok hl
    rwa [loadedState_eq]
  case hset =>
    intro s t i v h hs
    obtain ⟨j, rfl⟩ := hostSetReg_ok hs
    exact h
  case hwrite =>
    intro s t a bs h hw
    obtain ⟨-, rfl⟩ := hostMemWrite_ok hw
    exact h
  case hadd =>
    intro s t a h ha
    rcases addBreakpoint_ok ha with rfl | ⟨-, rfl⟩ <;> exact h
  case hrem => exact fun _ _ h => h
  case hsnap =>
    intro s t b h hl
    obtain ⟨-, rfl⟩ := loadSnapshot_ok hl
    exact h
  case hdev =>
    intro s t m h hr
    obtain ⟨-, -, -, rfl⟩ := registerDevice_ok hr
    exact h

/-- Settles O9: a byte in a window stops the fetch with the refusal, and the mark it leaves is kept by every step and
every host operation. -/
theorem deviceFetchIsRefused : Obligations.DeviceFetchIsRefused := by
  refine ⟨fun s hh hpc hr => ?opcode, fun s mn k hh hm hr hop hfit hk hdev => ?operand,
    fun s q hq => ?cpuStep, fun _ _ _ _ _ _ => runLoop_refused_marks, fun s hmark => ?clean,
    fun s t turns op hmark => host_keeps_refusalMark hmark turns op t⟩
  case opcode => exact step_of_decodeAt_error hh (decodeAt_opcode_device hpc hr)
  case operand =>
    rw [documentedSize_eq_size] at hfit hk
    exact step_of_decodeAt_error hh (decodeAt_operand_device hm hr hop hfit hk hdev)
  case cpuStep =>
    unfold cpuStep
    rw [hq]
    rfl
  case clean =>
    have hnot := not_runsClean_of_marked hmark
    exact ⟨hnot, fun ⟨k, t, hr, _⟩ => hnot (k + 1) t hr⟩

end Sys2Proof.Machine
end

section
/-! PROOF. The encoder and the decoder undo each other, and what the opcode byte alone decides (30_encoding.md R110, R111,
R120, R125, R131, R134). -/

namespace Sys2Proof.Machine

open Sys2Proof.Statements

/-! The record of a known opcode. -/

@[simp] theorem readRecord_op (mn : Mnemonic) (bs : List Byte) :
    (readRecord mn bs).op = bs.getD 0 0 := by
  cases mn <;> rfl

theorem instr_readRecord (mn : Mnemonic) (bs : List Byte) :
    (readRecord mn bs).instr = some (instrOfFields mn (readRecord mn bs)) := by
  simp only [DecodeRecord.instr, readRecord_mnem]

@[simp] theorem mnemonic_instrOfFields (mn : Mnemonic) (D : DecodeRecord) :
    (instrOfFields mn D).mnemonic = mn := by
  cases mn <;> rfl

/-- The operand bytes of the instruction read from `bs` are the bytes of `bs` after the opcode byte (R111). -/
theorem operandBytes_readRecord (mn : Mnemonic) (bs : List Byte) :
    (instrOfFields mn (readRecord mn bs)).operandBytes =
      (List.range (mn.size - 1)).map fun k => bs.getD (k + 1) 0 := by
  cases mn <;>
    simp [instrOfFields, readRecord, Mnemonic.format, Instr.operandBytes, Mnemonic.size, Format.size,
      List.range_succ, wordBytes, halfBytes, wordByte_le32, halfByte_le16]

theorem take_eq_map_getD {bs : List Byte} {n : Nat} (h : n ≤ bs.length) :
    bs.take n = (List.range n).map fun k => bs.getD k 0 := by
  apply List.ext_getElem
  · simpa using h
  · intro k hk _
    have hlt : k < bs.length := by simp at hk; omega
    simp [List.getD, hlt]

/-- Bytes that begin with a mnemonic's code and are long enough begin with the encoding of what is read from them. -/
theorem encode_readRecord {m : OpcodeMap} {mn : Mnemonic} {op : Byte} {rest : List Byte}
    (hop : m.code mn = op) (hlen : mn.size ≤ (op :: rest).length) :
    encode m (instrOfFields mn (readRecord mn (op :: rest))) = (op :: rest).take mn.size := by
  obtain ⟨n, hn⟩ : ∃ n, mn.size = n + 1 := ⟨mn.size - 1, by have := size_pos mn; omega⟩
  rw [encode, mnemonic_instrOfFields, hop, operandBytes_readRecord, hn, List.take_succ_cons,
    take_eq_map_getD (by simpa [hn] using hlen)]
  simp

/-! The decoder (R125, R131). -/

theorem decode_unknown {m : OpcodeMap} {op : Byte} (h : m.lookup op = none) (rest : List Byte) :
    decode m (op :: rest) = .ok (unknownRecord op) := by
  simp only [decode, h]

theorem decode_known {m : OpcodeMap} {op : Byte} {mn : Mnemonic} {rest : List Byte}
    (h : m.lookup op = some mn) (hlen : mn.size ≤ (op :: rest).length) :
    decode m (op :: rest) = .ok (readRecord mn (op :: rest)) := by
  simp only [decode, h, if_neg (show ¬ (op :: rest).length < mn.size by omega)]

/-- What a byte string that decodes is: an unknown opcode byte, or a mnemonic's code with enough bytes after it. -/
theorem decode_ok {m : OpcodeMap} {bs : List Byte} {D : DecodeRecord} (h : decode m bs = .ok D) :
    ∃ op rest, bs = op :: rest ∧
      ((m.lookup op = none ∧ D = unknownRecord op) ∨
        ∃ mn, m.lookup op = some mn ∧ mn.size ≤ bs.length ∧ D = readRecord mn bs) := by
  cases bs with
  | nil => cases h
  | cons op rest =>
    refine ⟨op, rest, rfl, ?_⟩
    cases hl : m.lookup op with
    | none =>
      rw [decode_unknown hl] at h
      cases h
      exact .inl ⟨rfl, rfl⟩
    | some mn =>
      by_cases hlen : mn.size ≤ (op :: rest).length
      · rw [decode_known hl hlen] at h
        cases h
        exact .inr ⟨mn, rfl, hlen, rfl⟩
      · simp only [decode, hl, if_pos (show (op :: rest).length < mn.size by omega)] at h
        cases h

/-- Under an injective map an encoding decodes, whatever follows it, to the record read from it (R134). -/
theorem decode_encode {m : OpcodeMap} (hm : m.injective = true) (i : Instr) (rest : List Byte) :
    decode m (encode m i ++ rest) = .ok (readRecord i.mnemonic (encode m i ++ rest)) := by
  have hlen : i.mnemonic.size ≤ (encode m i ++ rest).length := by
    rw [List.length_append, length_encode]
    exact Nat.le_add_right _ _
  exact decode_known (lookup_code hm i.mnemonic) hlen

theorem instr_readRecord_encode (m : OpcodeMap) (i : Instr) (rest : List Byte) :
    (readRecord i.mnemonic (encode m i ++ rest)).instr = some i := by
  rw [instr_readRecord, instrOfFields_encode]

/-- Settles O1: the record read from the encoding holds the operands, and its size and opcode byte are the mnemonic's. -/
theorem decodeOfEncode : Obligations.DecodeOfEncode := by
  intro m i rest hm
  refine ⟨_, decode_encode hm i rest, instr_readRecord_encode m i rest, ?size, ?op,
    readRecord_known _ _⟩
  case size => rw [readRecord_size, documentedSize_eq_size]
  case op => exact readRecord_op _ _

/-- Settles O2, by the two kinds of byte string that decode: an unknown opcode has no instruction, and a known one's fields
are encoded as the bytes they were read from. -/
theorem encodeOfDecode : Obligations.EncodeOfDecode := by
  intro m bs D i hd hi
  obtain ⟨op, rest, rfl, ⟨-, rfl⟩ | ⟨mn, hl, hlen, rfl⟩⟩ := decode_ok hd
  · cases hi
  · rw [instr_readRecord] at hi
    cases hi
    rw [readRecord_size, encode_readRecord (code_of_lookup hl) hlen]

/-- Settles O3: the length of an encoding by `length_encode`, and the size of a record by what its opcode byte is looked
up as. -/
theorem sizesFollowTheTable : Obligations.SizesFollowTheTable := by
  refine ⟨fun m i => ⟨?_, rfl⟩, fun m mn bs D hm hd => ?_⟩
  · rw [length_encode, documentedSize_eq_size, Instr.size]
  · obtain ⟨op, rest, hbs, hD⟩ := decode_ok hd
    cases hbs
    rw [lookup_code hm] at hD
    obtain ⟨h, -⟩ | ⟨mn', hl, -, rfl⟩ := hD
    · cases h
    · cases hl
      rw [readRecord_size, documentedSize_eq_size]

/-! Unknown opcodes (R125, 60_exceptions.md R309). -/

theorem decodeAt_unknown {s : State} {pc : Nat} (hpc : pc < s.cfg.memSize)
    (hr : resolve s.devmap pc = .ram) (hl : s.cfg.opcodes.lookup (s.ram.read pc) = none) :
    s.decodeAt pc = .ok (unknownRecord (s.ram.read pc)) := by
  simp only [State.decodeAt, if_neg (show ¬ pc ≥ s.cfg.memSize by omega), fetchByte_ram hr, hl]

theorem step_of_decodeAt_unknown {s : State} {op : Byte} (hh : s.halted = false)
    (hd : s.decodeAt s.pc.toNat = .ok (unknownRecord op)) :
    step s = .next (s.faulted .unimplementedOpcode) := by
  rw [step, State.cycle, hh, hd]
  rfl

/-- The bytes outside the image of the default map (R121). -/
theorem defaultOpcodeMap_lookup_eq_none (op : Byte) :
    defaultOpcodeMap.lookup op = none ↔ op = 0x00 ∨ 0x14 ≤ op.toNat := by
  revert op
  decide

/-- Settles O4: an opcode byte outside the image is looked up as nothing, so the decoder answers the "unimplemented" record
and the step faults on it. -/
theorem unknownOpcodeIsUnimplemented : Obligations.UnknownOpcodeIsUnimplemented := by
  refine ⟨fun m op rest hop => ?record, fun s hh hpc hr hop => ?step, fun op => ?default⟩
  case record => exact ⟨_, decode_unknown (lookup_eq_none.mpr hop) rest, rfl, rfl, rfl, rfl⟩
  case step =>
    have hd := decodeAt_unknown hpc hr (lookup_eq_none.mpr hop)
    exact ⟨_, step_of_decodeAt_unknown hh hd, rfl, rfl⟩
  case default => rw [← lookup_eq_none, defaultOpcodeMap_lookup_eq_none]

/-- Settles O5, by running the decoder on each word. -/
theorem specWordsDecode : Obligations.SpecWordsDecode := by
  refine ⟨?_, ?_, ?_, ?_, ?_, ?_⟩ <;> decide

end Sys2Proof.Machine
end

section
/-! PROOF. A line of disassembly, assembled, is the instruction it was rendered from (30_encoding.md R135, R144, R156). -/

namespace Sys2Proof.Machine

/-! Operands, format by format (R111, R112, R144). -/

/-- The register fields a format reads, in field order (R111). -/
def formatRegs (fmt : Format) (D : DecodeRecord) : List Byte :=
  match fmt with
  | .n => []
  | .ri => [D.r1]
  | .rro => [D.r1, D.r2]
  | .rrr => [D.r1, D.r2, D.r3]
  | .rr => [D.r1, D.r2]
  | .r => [D.r1]
  | .a => []

theorem regFields_instrOfFields (mn : Mnemonic) (D : DecodeRecord) :
    (instrOfFields mn D).regFields = formatRegs mn.format D := by
  cases mn <;> rfl

theorem instrOfFields_withOp (mn : Mnemonic) (D : DecodeRecord) (op : Byte) :
    instrOfFields mn { D with op := op } = instrOfFields mn D := by
  cases mn <;> rfl

theorem isToken_operandTexts (fmt : Format) (D : DecodeRecord) :
    ∀ t ∈ operandTexts fmt D, IsToken t := by
  cases fmt <;> simp [operandTexts, isToken_regText, isToken_decimal]

/-- The operand texts of a record are parsed as its fields; the opcode byte is the encoder's to fill in. -/
theorem parseOperands_operandTexts {mn : Mnemonic} {bs : List Byte}
    (h : ∀ r ∈ formatRegs mn.format (readRecord mn bs), regFieldOk r = true) :
    parseOperands [] mn (operandTexts mn.format (readRecord mn bs)) =
      .ok { readRecord mn bs with op := 0 } := by
  have hreg : ∀ r ∈ formatRegs mn.format (readRecord mn bs), parseRegister (regText r) = .ok r :=
    fun r hr => parseRegister_regText r (h r hr)
  clear h
  unfold readRecord at hreg ⊢
  unfold parseOperands
  cases hf : mn.format <;> simp only [hf, formatRegs, List.forall_mem_cons] at hreg <;>
    simp only [operandTexts, hreg, parseWord_decimal, parseOffset_decimal] <;> rfl

/-- Settles O60: the disassembled line has the mnemonic and the operands as its tokens, and these parse to the fields that
were decoded. -/
theorem assembleOfDisassembly : Obligations.AssembleOfDisassembly := by
  intro m i D hm hwf hd
  have hread := decode_encode hm i []
  have hi := instrOfFields_encode m i []
  rw [List.append_nil] at hread hi
  cases hd.symm.trans hread
  have hregs : ∀ r ∈ formatRegs i.mnemonic.format (readRecord i.mnemonic (encode m i)),
      regFieldOk r = true := by
    rw [← regFields_instrOfFields, hi]
    exact List.all_eq_true.mp hwf
  have hline := assemble_line m i.mnemonic _ _ (isToken_operandTexts _ _)
    (parseOperands_operandTexts hregs)
  rw [instrOfFields_withOp, hi] at hline
  simpa only [recordText, readRecord_mnem] using hline

end Sys2Proof.Machine
end

section
/-! PROOF. The checksum of an emitted image (30_encoding.md R148, 70_reset_and_hazards.md R360 to R365). -/

namespace Sys2Proof.Machine

/-- Replacing one byte by another changes Adler-32: its low half is a sum modulo 65521, and two bytes differ by less. -/
theorem adler32_set_ne {payload : List Byte} {k : Nat} {b : Byte} (hk : k < payload.length)
    (hb : b ≠ payload.getD k 0) : adler32 payload ≠ adler32 (payload.set k b) := by
  intro he
  have hlow := congrArg (fun v : Word => v.toNat % 65536) he
  simp only [adler32_low] at hlow
  have hsum := sum_set payload k b hk
  have hne : b.toNat ≠ (payload.getD k 0).toNat := fun h => hb (BitVec.eq_of_toNat_eq h)
  have hblt := b.isLt
  have hplt := (payload.getD k 0).isLt
  omega

theorem parseProgram_emitHeader (entry : Word) {payload : List Byte} (h : payload.length < 2 ^ 32) :
    parseProgram true (emitHeader entry payload) = .ok (payload, entry) := by
  rw [emitHeader, parseProgram_v2]
  simpa using h

theorem emitHeader_set (entry : Word) (payload : List Byte) (k : Nat) (b : Byte) :
    (emitHeader entry payload).set (20 + k) b =
      headerMagic ++ wordBytes 2 ++ wordBytes entry ++ wordBytes (BitVec.ofNat 32 payload.length) ++
        wordBytes (adler32 payload) ++ payload.set k b := by
  rw [emitHeader, List.set_append_right _ _ (by simp [headerMagic])]
  simp [headerMagic]

theorem parseProgram_emitHeader_set (entry : Word) {payload : List Byte} {k : Nat} {b : Byte}
    (h : payload.length < 2 ^ 32) (hk : k < payload.length) (hb : b ≠ payload.getD k 0) :
    parseProgram true ((emitHeader entry payload).set (20 + k) b) =
      .error .headerChecksumMismatch := by
  rw [emitHeader_set, parseProgram_v2]
  simpa [adler32_set_ne hk hb] using h

theorem loadProgramBytes_of_parse {s : State} {bytes payload : List Byte} {entry : Word}
    (h : parseProgram s.cfg.verify bytes = .ok (payload, entry))
    (hfit : payload.length ≤ s.cfg.memSize) :
    loadProgramBytes bytes s = .ok (loadedState payload entry s) := by
  simp only [loadProgramBytes, h, if_neg (show ¬ payload.length > s.cfg.memSize by omega)]

theorem loadProgramBytes_of_parse_error {s : State} {bytes : List Byte} {e : HostError}
    (h : parseProgram s.cfg.verify bytes = .error e) : loadProgramBytes bytes s = .error e := by
  simp only [loadProgramBytes, h]

/-- Settles O49: the emitted header agrees with its payload, and no longer with one that differs in one byte. -/
theorem checksumProperty : Obligations.ChecksumProperty := by
  intro s entry payload hv hlen
  refine ⟨fun hfit => ?loads, fun k b hk hb => ?detects⟩
  case loads =>
    have hp := parseProgram_emitHeader entry hlen
    rw [← hv] at hp
    exact ⟨_, loadProgramBytes_of_parse hp hfit⟩
  case detects =>
    have hp := parseProgram_emitHeader_set entry hlen hk hb
    rw [← hv] at hp
    exact loadProgramBytes_of_parse_error hp

end Sys2Proof.Machine
end

section
/-! PROOF. The step and its outcomes (40_cycle.md R172 to R180), and how far a run call goes (R181 to R192). -/

namespace Sys2Proof.Machine

open Sys2Proof.Statements

/-! The step (R172, R173, R178). -/

/-- Where an encoding stands wholly in RAM, under no device window, the fetch gives the record read from it. -/
theorem decodeAt_encode {s : State} {pc : Nat} {i : Instr} (hm : s.cfg.opcodes.injective = true)
    (hfit : pc + i.size ≤ s.cfg.memSize) (hram : ∀ k, k < i.size → resolve s.devmap (pc + k) = .ram)
    (hread : ∀ k, k < i.size → s.ram.read (pc + k) = (encode s.cfg.opcodes i).getD k 0) :
    s.decodeAt pc = .ok (readRecord i.mnemonic (encode s.cfg.opcodes i)) := by
  have hpos : 0 < i.size := size_pos i.mnemonic
  have hop : s.fetchByte pc = some (s.cfg.opcodes.code i.mnemonic) :=
    (fetchByte_ram (hram 0 hpos)).trans (congrArg some (hread 0 hpos))
  have hbytes : s.fetchBytes pc i.mnemonic.size = some (encode s.cfg.opcodes i) :=
    (fetchBytes_ram s pc i.size hram).trans
      (congrArg some (readBytes_eq (length_encode s.cfg.opcodes i) hread))
  have hdec := decode_encode hm i []
  rw [List.append_nil] at hdec
  have hend : ¬ pc + i.mnemonic.size > s.cfg.memSize := Nat.not_lt.mpr hfit
  simp only [State.decodeAt, if_neg (show ¬ pc ≥ s.cfg.memSize by omega), hop, lookup_code hm,
    if_neg hend, hbytes, hdec]

theorem step_of_decodeAt_instr {s : State} {D : DecodeRecord} {i : Instr} (hh : s.halted = false)
    (hd : s.decodeAt s.pc.toNat = .ok D) (hi : D.instr = some i) : step s = exec i s := by
  simp [step, State.cycle, State.runRecord, hh, hd, hi]

/-- Settles O6: the fetch gives the record read from the encoding, whose fields are the instruction's again. -/
theorem stepRunsTheDecodedInstruction : Obligations.StepRunsTheDecodedInstruction := by
  intro s i hh hm hfit hbytes
  have hd := decodeAt_encode hm hfit (fun k hk => (hbytes k hk).1) (fun k hk => (hbytes k hk).2)
  have hi := instr_readRecord_encode s.cfg.opcodes i []
  rw [List.append_nil] at hi
  exact step_of_decodeAt_instr hh hd hi

/-- Settles O7. -/
theorem haltedStepChangesNothing : Obligations.HaltedStepChangesNothing :=
  fun _ => step_of_halted

/-! The outcomes of a step (R180). -/

theorem step_fault_running {s : State} {f : Fault} (h : step s = .fault f) : s.halted = false := by
  by_contra hh
  rw [step_of_halted (by simpa using hh)] at h
  cases h

/-- The only refusal of a step is its fetch's, from a device window (20_memory.md R84). -/
theorem step_refused {s : State} {q : Refusal} (h : step s = .refused q) :
    s.halted = false ∧ q = .deviceFetch := by
  rcases step_cases s with ⟨-, e⟩ | ⟨hh, e, -, he⟩ | ⟨-, D, -, -, e⟩ | ⟨-, D, i, -, -, e⟩
  · rw [h] at e
    cases e
  · rw [h] at he
    cases e with
    | decodeOutOfRange => cases he
    | deviceFetch =>
      cases he
      exact ⟨hh, rfl⟩
  · rw [h] at e
    cases e
  · have hend := exec_endsWell i s
    rw [← e, h] at hend
    exact hend.elim

/-- Settles O10: a step's next state is the halted machine's or one of the ends of an instruction, and each end has its
own report. -/
theorem everyStepHasOneOutcome : Obligations.EveryStepHasOneOutcome := by
  intro s
  cases h : step s with
  | next t =>
    rcases step_next h with ⟨hh, rfl⟩ | ⟨hh, he⟩
    · exact .inl ⟨hh, rfl, hh⟩
    · cases he with
      | completed _ e => exact .inr (.inl ⟨hh, e.status⟩)
      | fault c => exact .inr (.inr (.inl ⟨hh, rfl, c, rfl⟩))
      | inputFailure => exact .inr (.inr (.inl ⟨hh, rfl, _, rfl⟩))
      | waiting hi => exact .inr (.inr (.inr ⟨hh, hh, hi, rfl⟩))
  | fault f => exact step_fault_running h
  | refused q => exact step_refused h

/-- A step that waits changes only the report (45_io_halt.md R283). -/
theorem step_waiting {s t : State} (h : step s = .next t) (hw : t.status = .waitIn) :
    t = { s with status := .waitIn } := by
  rcases step_next h with ⟨-, rfl⟩ | ⟨-, he⟩
  · cases hw
  · cases he with
    | completed _ e => cases e.status.symm.trans hw
    | fault | inputFailure => cases hw
    | waiting => rfl

/-! The tests before a step of a run call (R181, R186). -/

theorem stopBefore_none {bpMode : Bool} {limit : Option Nat} {count : Nat} {s : State}
    (h : stopBefore bpMode limit count s = none) :
    limitReached limit count = false ∧ (bpMode = true → count < s.cfg.bpStepCap) := by
  unfold stopBefore at h
  split_ifs at h
  simp_all

theorem stopBefore_stopBreakpoint {bpMode : Bool} {limit : Option Nat} {count : Nat} {s : State}
    (h : stopBefore bpMode limit count s = some .stopBreakpoint) :
    s.halted = false ∧ s.pc ∈ s.bp := by
  unfold stopBefore at h
  split_ifs at h <;> simp_all [State.atBreakpoint]

/-- The tests of the CPU's own run know neither the breakpoints nor the cap (R181, R187). -/
theorem stopBefore_cpu {limit : Option Nat} {count : Nat} {s : State} {r : StopReason}
    (h : stopBefore false limit count s = some r) : r = .stopHalted ∨ r = .stopLimit := by
  unfold stopBefore at h
  split_ifs at h <;> simp_all

theorem limitReached_limitOf {n : Nat} (hn : 0 < n) (count : Nat) :
    limitReached (limitOf n) count = decide (n ≤ count) := by
  rw [limitOf, if_neg (by omega)]
  rfl

/-- A limit of at least one step is not reached before the first. -/
theorem limitReached_limitOf_zero (n : Nat) : limitReached (limitOf n) 0 = false := by
  cases n <;> rfl

theorem count_lt_of_stopBefore_none {bpMode : Bool} {n count : Nat} {s : State} (hn : 0 < n)
    (h : stopBefore bpMode (limitOf n) count s = none) : count < n := by
  obtain ⟨hlim, -⟩ := stopBefore_none h
  simpa [limitReached_limitOf hn] using hlim

/-- The tests of a breakpoint-mode run that starts at a breakpoint (R190). -/
theorem stopBefore_start_at_breakpoint {n : Nat} {s : State} (hh : s.halted = false)
    (hcap : 0 < s.cfg.bpStepCap) (hp : s.pc ∈ s.bp) :
    stopBefore true (limitOf n) 0 s = some .stopBreakpoint := by
  simp [stopBefore, hh, limitReached_limitOf_zero, State.atBreakpoint, hp,
    show s.cfg.bpStepCap ≠ 0 by omega]

/-! Where a run call ends. -/

theorem runLoop_of_stopBefore {bpMode : Bool} {limit : Option Nat} {count : Nat} {s : State}
    {r : StopReason} (h : stopBefore bpMode limit count s = some r) (turns : Nat) :
    runLoop bpMode limit turns count s = { state := s, steps := count, stop := some r } := by
  cases turns <;> simp [runLoop, h]

theorem runLoop_sameMaps (bpMode : Bool) (limit : Option Nat) (turns count : Nat) (s : State) :
    SameMaps s (runLoop bpMode limit turns count s).state := by
  refine runLoop_keeps (SameMaps s) ?step ?fault (fun _ h => h) _ _ _ _ _ ⟨rfl, rfl, rfl⟩
  case step =>
    rintro u t ⟨hcfg, hdev, hbp⟩ hs
    obtain ⟨⟨hcfg', hdev', hbp'⟩, -⟩ := step_sameSetup hs
    exact ⟨hcfg'.trans hcfg, hdev'.trans hdev, hbp'.trans hbp⟩
  case fault =>
    intro u f hu
    rw [afterFault_eq]
    exact hu

/-- The end of a run call whose turns are used up after `last` steps: a step aborted it; or its stop reason is what the
tests say of the state it has come to, and if it has none, an IN waits or the turns are used up. -/
def EndsAsTested (bpMode : Bool) (limit : Option Nat) (last : Nat) (r : RunResult) : Prop :=
  (∃ o, r.stop = some (.abort o)) ∨
    (r.stop = stopBefore bpMode limit r.steps r.state ∧
      (r.stop = none → r.state.status = .waitIn ∨ r.steps = last))

theorem runLoop_endsAsTested (bpMode : Bool) (limit : Option Nat) (turns count : Nat) (s : State) :
    EndsAsTested bpMode limit (count + turns) (runLoop bpMode limit turns count s) := by
  induction turns generalizing count s with
  | zero => exact .inr ⟨rfl, fun _ => .inr rfl⟩
  | succ n ih =>
    unfold runLoop
    cases hb : stopBefore bpMode limit count s with
    | some r => exact .inr ⟨hb.symm, nofun⟩
    | none =>
      cases hs : step s with
      | next t =>
        by_cases hw : t.status = .waitIn
        · have ht := step_waiting hs hw
          subst ht
          exact .inr ⟨hb.symm, fun _ => .inl rfl⟩
        · simp only [if_neg hw]
          rw [← Nat.succ_add_eq_add_succ]
          exact ih (count + 1) t
      | fault f => exact .inl ⟨_, rfl⟩
      | refused q => exact .inl ⟨_, rfl⟩

/-! How many steps a run call takes (R181, R186, R192). -/

/-- The tests let a run on the parameters of `s` take fewer than `bound` steps before another one. -/
def TestsBound (bpMode : Bool) (limit : Option Nat) (s : State) (bound : Nat) : Prop :=
  ∀ (count : Nat) (u : State), u.cfg = s.cfg → stopBefore bpMode limit count u = none → count < bound

theorem testsBound_cap (limit : Option Nat) (s : State) : TestsBound true limit s s.cfg.bpStepCap := by
  intro count u hcfg h
  rw [← hcfg]
  exact (stopBefore_none h).2 rfl

theorem testsBound_limit (bpMode : Bool) {n : Nat} (hn : 0 < n) (s : State) :
    TestsBound bpMode (limitOf n) s n :=
  fun _ _ _ h => count_lt_of_stopBefore_none hn h

theorem runLoop_steps_le {bpMode : Bool} {limit : Option Nat} {bound count : Nat} {s : State}
    (hb : TestsBound bpMode limit s bound) (hc : count ≤ bound) (turns : Nat) :
    (runLoop bpMode limit turns count s).steps ≤ bound := by
  induction turns generalizing count s with
  | zero => exact hc
  | succ n ih =>
    unfold runLoop
    cases hn : stopBefore bpMode limit count s with
    | some r => exact hc
    | none =>
      have hlt : count < bound := hb count s rfl hn
      cases hs : step s with
      | next t =>
        by_cases hw : t.status = .waitIn
        · simpa only [if_pos hw] using hc
        · obtain ⟨⟨hcfg, -⟩, -⟩ := step_sameSetup hs
          simp only [if_neg hw]
          exact ih (fun k u hu => hb k u (hu.trans hcfg)) hlt
      | fault f => exact hlt
      | refused q => exact hlt

/-- Followed for as many turns as its tests let it take steps, a run call has returned or waits in an IN. -/
theorem runLoop_returns {bpMode : Bool} {limit : Option Nat} {bound turns : Nat} {s : State}
    (hb : TestsBound bpMode limit s bound) (hturns : bound ≤ turns) :
    (runLoop bpMode limit turns 0 s).stop ≠ none ∨
      (runLoop bpMode limit turns 0 s).state.status = .waitIn := by
  refine or_iff_not_imp_left.mpr fun hstop => ?_
  have hnone := not_not.mp hstop
  rcases runLoop_endsAsTested bpMode limit turns 0 s with ⟨o, ho⟩ | ⟨htest, hopen⟩
  · exact absurd (ho.symm.trans hnone) nofun
  · refine (hopen hnone).resolve_right fun hlast => ?_
    obtain ⟨hcfg, -⟩ := runLoop_sameMaps bpMode limit turns 0 s
    have hlt := hb _ _ hcfg (htest.symm.trans hnone)
    omega

/-! The run calls. -/

/-- `runSteps(n)` is the loop in breakpoint mode exactly when a breakpoint is set (R182, R186). -/
theorem runSteps_eq_runLoop (n turns : Nat) (s : State) :
    runSteps n turns s = runLoop (!s.bp.isEmpty) (limitOf n) turns 0 s := by
  unfold runSteps
  cases s.bp.isEmpty <;> rfl

theorem runSteps_of_mem {s : State} {a : Word} (h : a ∈ s.bp) (n turns : Nat) :
    runSteps n turns s = runLoop true (limitOf n) turns 0 s :=
  if_neg (by simpa using List.ne_nil_of_mem h)

/-- `runUntilHalt()` has no limit, as `runSteps(0)` has none (R186). -/
theorem runUntilHalt_eq_runSteps : runUntilHalt = runSteps 0 := rfl

theorem runSteps_stopBreakpoint {n turns : Nat} {s : State}
    (h : (runSteps n turns s).stop = some .stopBreakpoint) :
    (runSteps n turns s).state.pc ∈ s.bp ∧ (runSteps n turns s).state.halted = false := by
  rw [runSteps_eq_runLoop] at h ⊢
  obtain ⟨-, -, hbp⟩ := runLoop_sameMaps (!s.bp.isEmpty) (limitOf n) turns 0 s
  rcases runLoop_endsAsTested (!s.bp.isEmpty) (limitOf n) turns 0 s with ⟨o, ho⟩ | ⟨htest, -⟩
  · exact absurd (ho.symm.trans h) nofun
  · obtain ⟨hh, hp⟩ := stopBefore_stopBreakpoint (htest.symm.trans h)
    rw [hbp] at hp
    exact ⟨hp, hh⟩

/-- A run call that has come to a running state at a breakpoint has returned: its tests have stopped it there. -/
theorem runSteps_returned_of_at_breakpoint {n turns : Nat} {s : State}
    (hh : (runSteps n turns s).state.halted = false) (hp : (runSteps n turns s).state.pc ∈ s.bp) :
    (runSteps n turns s).stop ≠ none := by
  rw [runSteps_of_mem hp] at hh hp ⊢
  obtain ⟨-, -, hbp⟩ := runLoop_sameMaps true (limitOf n) turns 0 s
  rcases runLoop_endsAsTested true (limitOf n) turns 0 s with ⟨o, ho⟩ | ⟨htest, -⟩
  · rw [ho]
    nofun
  · rw [htest]
    exact stopBefore_at_breakpoint hh (hbp.symm ▸ hp)

theorem runSteps_returned {n turns : Nat} {s : State} (h : (runSteps n turns s).stop ≠ none)
    (more : Nat) : runSteps n (turns + more) s = runSteps n turns s := by
  rw [runSteps_eq_runLoop] at h
  rw [runSteps_eq_runLoop, runSteps_eq_runLoop, runLoop_returned h]

theorem breakpointRule_runSteps (n : Nat) : BreakpointRule (runSteps n) := by
  refine ⟨fun turns s => runSteps_stopBreakpoint, fun turns s hh hcap hp => ?start,
    fun turns more s hh hp => ?arrival⟩
  case start =>
    rw [runSteps_of_mem hp, runLoop_of_stopBefore (stopBefore_start_at_breakpoint hh hcap hp)]
  case arrival =>
    have hret := runSteps_returned_of_at_breakpoint hh hp
    exact ⟨hret, runSteps_returned hret more⟩

/-- Settles O54: `runUntilHalt` is `runSteps 0`, and a run call's stop reason is what the tests say of the state it has
come to. -/
theorem breakpointStopsBeforeExecuting : Obligations.BreakpointStopsBeforeExecuting :=
  ⟨runUntilHalt_eq_runSteps ▸ breakpointRule_runSteps 0, breakpointRule_runSteps⟩

theorem boundedByTheCap_runSteps (n : Nat) : BoundedByTheCap (runSteps n) := by
  intro turns s hbp hturns
  obtain ⟨a, ha⟩ := List.exists_mem_of_ne_nil _ hbp
  have hb := testsBound_cap (limitOf n) s
  rw [runSteps_of_mem ha]
  exact ⟨runLoop_steps_le hb (Nat.zero_le _) turns, runLoop_returns hb hturns⟩

/-- Settles O55: the tests allow a step only below the cap, and below a positive limit. -/
theorem breakpointRunIsBounded : Obligations.BreakpointRunIsBounded := by
  refine ⟨runUntilHalt_eq_runSteps ▸ boundedByTheCap_runSteps 0, boundedByTheCap_runSteps,
    fun n turns s hn => ?_⟩
  rw [runSteps_eq_runLoop]
  exact runLoop_steps_le (testsBound_limit _ hn s) (Nat.zero_le _) turns

/-- The CPU's own run stops for a halt, its limit or an aborted step only (R181). -/
theorem cpuRun_stop {maxSteps turns : Nat} {s : State} {r : StopReason}
    (h : (cpuRun maxSteps turns s).stop = some r) :
    r = .stopHalted ∨ r = .stopLimit ∨ ∃ o, r = .abort o := by
  rcases runLoop_endsAsTested false (limitOf maxSteps) turns 0 s with ⟨o, ho⟩ | ⟨htest, -⟩
  · exact .inr (.inr ⟨o, Option.some.inj (h.symm.trans ho)⟩)
  · rcases stopBefore_cpu (htest.symm.trans h) with rfl | rfl
    · exact .inl rfl
    · exact .inr (.inl rfl)

/-- Settles O56: a positive number of steps bounds the loop, whose tests know no breakpoint and no cap. -/
theorem cpuRunIsBounded : Obligations.CpuRunIsBounded := by
  intro maxSteps turns s hpos hturns
  have hb := testsBound_limit false hpos s
  refine ⟨runLoop_steps_le hb (Nat.zero_le _) turns, runLoop_returns hb hturns, fun h => ?_,
    fun h => ?_⟩ <;>
  · rcases cpuRun_stop h with h | h | ⟨o, h⟩ <;> cases h

end Sys2Proof.Machine
end

section
/-! PROOF. The data transfer instructions LOADI, LOAD and STORE (41_data_transfer.md R200 to R206), and the fetch that the end
of RAM cuts (60_exceptions.md R310). -/

namespace Sys2Proof.Machine

open Sys2Proof.Statements

/-! Fetch at the end of RAM (R310). -/

theorem decodeAt_past_end {s : State} {pc : Nat} (h : s.cfg.memSize ≤ pc) :
    s.decodeAt pc = .error .decodeOutOfRange :=
  if_pos h

theorem decodeAt_cut {s : State} {pc : Nat} {mn : Mnemonic} (hm : s.cfg.opcodes.injective = true)
    (hr : resolve s.devmap pc = .ram) (hop : s.ram.read pc = s.cfg.opcodes.code mn)
    (hcut : s.cfg.memSize < pc + mn.size) : s.decodeAt pc = .error .decodeOutOfRange := by
  by_cases hpc : s.cfg.memSize ≤ pc
  · exact decodeAt_past_end hpc
  · simp only [State.decodeAt, if_neg hpc, fetchByte_ram hr, hop, lookup_code hm, if_pos hcut]

/-- An instruction cut by the end of RAM aborts its step, whatever the instruction. -/
theorem cutAborts (mn : Mnemonic) : CutAborts mn (documentedSize mn) := by
  intro s hh hm h
  rw [documentedSize_eq_size] at h
  refine step_of_decodeAt_error (e := .decodeOutOfRange) hh ?_
  rcases h with hpast | ⟨hr, hop, hcut⟩
  · exact decodeAt_past_end hpast
  · exact decodeAt_cut hm hr hop hcut

/-! Execution faults (60_exceptions.md R302, R307). -/

theorem faultsWith_of_raise {i : Instr} {c : ExecFault} {s : State} (h : exec i s = s.raise c) :
    FaultsWith i c s :=
  ⟨_, h, rfl, rfl⟩

/-! LOADI, LOAD and STORE. -/

theorem exec_loadi_result (s : State) (d : Fin 8) (imm : Word) :
    exec (.loadi (regField d) imm) s = .next (s.withResult d imm (s.pc + 6)) :=
  exec_loadi s d imm

theorem exec_loadi_badRegister (s : State) {d : Byte} (imm : Word) (h : 8 ≤ d.toNat) :
    exec (.loadi d imm) s = s.raise .invalidRegister :=
  withReg_of_ge h s _

/-- Settles O12: the register check decides between the result and the fault, and a cut fetch aborts as it does for every
instruction. -/
theorem loadImmediate : Obligations.LoadImmediate := by
  refine ⟨rfl, fun m d imm => rfl, fun s d imm => ?result, fun s d imm hd => ?badRegister,
    cutAborts .loadi⟩
  case result =>
    exact ⟨_, exec_loadi_result s d imm, rfl, withResult_reg s d imm _, withResult_z s d imm _,
      sameHighFlags_withResult s d imm _, rfl⟩
  case badRegister => exact faultsWith_of_raise (exec_loadi_badRegister s imm hd)

theorem readWord_eq_ramWord (s : State) (a : Nat) : s.ram.readWord a = ramWord s a := rfl

/-- Settles O13: the bus answers the RAM word at the effective address and changes nothing, and LOAD leaves it as its
result. -/
theorem loadReadsRam : Obligations.LoadReadsRam := by
  intro s d b off hr hb
  rw [← effAddr_eq_dataAddress] at hr hb ⊢
  have hread := memRead_ram hr hb
  rw [readWord_eq_ramWord] at hread
  exact ⟨_, exec_load_of_memRead hread, rfl, withResult_reg _ d _ _, withResult_z _ d _ _, rfl⟩

/-- Settles O14: the bus writes the register's word at the effective address and nothing else, and in a canonical memory
the written bytes read back. -/
theorem storeWritesRam : Obligations.StoreWritesRam := by
  intro s b r off hwf hr hb
  rw [← effAddr_eq_dataAddress] at hr hb ⊢
  exact ⟨_, exec_store_of_memWrite (memWrite_ram hr hb), rfl, holdsWord_of_writeWord hwf rfl, rfl, rfl⟩

end Sys2Proof.Machine
end

section
/-! PROOF. The arithmetic, logic and compare instructions ADD, SUB, AND, OR, XOR and CMP (42_alu.md). -/

namespace Sys2Proof.Machine

open Sys2Proof.Statements

/-! The register check of an instruction with several fields (40_cycle.md R175). -/

/-- The fault comes from this field, or the rest of the instruction raises it for every register this field names. -/
theorem withReg_badRegister {r : Byte} {s : State} {k : Fin 8 → StepResult}
    (h : 8 ≤ r.toNat ∨ ∀ i, k i = s.raise .invalidRegister) :
    withReg r s k = s.raise .invalidRegister := by
  rcases withReg_cases r s k with ⟨i, rfl, e⟩ | ⟨-, e⟩
  · have hi := toNat_regField_lt i
    exact e.trans (h.resolve_left (by omega) i)
  · exact e

/-! The five three-register instructions. -/

theorem aluOp_result (f : Word → Word → Word) (s : State) (d a b : Fin 8) :
    aluOp f (regField d) (regField a) (regField b) s =
      .next (s.withResult d (f (s.reg a) (s.reg b)) (s.pc + 4)) :=
  aluOp_regs f s d a b

theorem aluOp_badRegister (f : Word → Word → Word) (s : State) {d a b : Byte}
    (h : 8 ≤ d.toNat ∨ 8 ≤ a.toNat ∨ 8 ≤ b.toNat) :
    aluOp f d a b s = s.raise .invalidRegister :=
  withReg_badRegister (h.imp_right fun hab _ =>
    withReg_badRegister (hab.imp_right fun hb _ => withReg_of_ge hb s _))

/-- An instruction of format RRR whose meaning is `aluOp f` follows the rule the five share (42_alu.md R232). -/
theorem aluRule_of_exec_eq_aluOp {mn : Mnemonic} {code : Byte} {con : Byte → Byte → Byte → Instr}
    {f : Word → Word → Word} (hcode : defaultOpcodeMap.code mn = code)
    (hsize : documentedSize mn = 4)
    (hencode : ∀ (m : OpcodeMap) (d a b : Byte), encode m (con d a b) = [m.code mn, d, a, b])
    (hexec : ∀ (s : State) (d a b : Byte), exec (con d a b) s = aluOp f d a b s) :
    AluRule mn code con f := by
  refine ⟨hcode, hencode, fun s d a b => ?result, fun s d a b h => ?badRegister, ?cut⟩
  case result =>
    exact ⟨_, (hexec s _ _ _).trans (aluOp_result f s d a b), rfl, withResult_reg s d _ _,
      withResult_z s d _ _, sameHighFlags_withResult s d _ _, rfl⟩
  case badRegister =>
    exact faultsWith_of_raise ((hexec s d a b).trans (aluOp_badRegister f s h))
  case cut =>
    rw [← hsize]
    exact cutAborts mn

/-- Settles O16: each of the five is `aluOp` of its own operation, under its own code. -/
theorem aluInstructions : Obligations.AluInstructions := by
  refine ⟨?add, ?sub, ?and, ?or, ?xor⟩
  all_goals exact aluRule_of_exec_eq_aluOp rfl rfl (fun _ _ _ _ => rfl) fun _ _ _ _ => rfl

/-! CMP. -/

theorem exec_cmp_badRegister (s : State) {a b : Byte} (h : 8 ≤ a.toNat ∨ 8 ≤ b.toNat) :
    exec (.cmp a b) s = s.raise .invalidRegister :=
  withReg_badRegister (h.imp_right fun hb _ => withReg_of_ge hb s _)

/-- Settles O17: CMP writes Z and moves PC, the register check decides between that and the fault, and a cut fetch aborts
as it does for every instruction. -/
theorem compareInstruction : Obligations.CompareInstruction := by
  refine ⟨rfl, fun m a b => rfl, fun s a b => ?result, fun s a b h => ?badRegister, cutAborts .cmp⟩
  case result =>
    exact ⟨_, exec_cmp s a b, rfl, z_putZ s (s.reg a == s.reg b), sameHighFlags_of_withZ rfl,
      fun _ => rfl, rfl⟩
  case badRegister => exact faultsWith_of_raise (exec_cmp_badRegister s h)

end Sys2Proof.Machine
end

section
/-! PROOF. The jumps JMP, JZ and JNZ (43_control.md R240 to R244): a jump completes at its target, and a bad target aborts
the step after it. -/

namespace Sys2Proof.Machine

open Sys2Proof.Statements

/-! Where each jump leaves PC. -/

theorem exec_jmp (s : State) (target : Word) : exec (.jmp target) s = s.complete target := rfl

theorem branch_eq_complete (taken : Bool) (target : Word) (s : State) :
    branch taken target s = s.complete (if taken then target else s.pc + 5) :=
  (apply_ite s.complete _ _ _).symm

theorem exec_jz (s : State) (target : Word) :
    exec (.jz target) s = s.complete (if s.flags.getLsbD 0 = true then target else s.pc + 5) :=
  branch_eq_complete s.z target s

theorem exec_jnz (s : State) (target : Word) :
    exec (.jnz target) s = s.complete (if s.flags.getLsbD 0 = false then target else s.pc + 5) := by
  have hnot : (!s.z) = true ↔ s.flags.getLsbD 0 = false := iff_of_eq (Bool.not_eq_true' s.z)
  exact (branch_eq_complete (!s.z) target s).trans (congrArg s.complete (if_congr hnot rfl rfl))

/-! The step after a jump to a bad target (R240). -/

/-- Completing an instruction writes PC and the report only, so the next fetch meets the target as it was. -/
theorem step_of_complete_badTarget {s t : State} {target : Word} (h : s.complete target = .next t)
    (hh : s.halted = false) (hm : s.cfg.opcodes.injective = true) (hbad : BadTarget s target) :
    step t = .fault .decodeOutOfRange := by
  cases h
  rcases hbad with hpast | ⟨mn, hcut⟩
  · exact step_of_decodeAt_error (e := .decodeOutOfRange) hh (decodeAt_past_end hpast)
  · exact cutAborts mn _ hh hm (.inr hcut)

/-- Settles O18: JMP completes at its target unchecked, and the step after it fetches there. -/
theorem jumpInstruction : Obligations.JumpInstruction := by
  refine ⟨rfl, fun m target => rfl, fun s target => ⟨_, exec_jmp s target, rfl, rfl, rfl⟩,
    cutAborts .jmp, fun s t target h hh hm hbad => ?_⟩
  exact step_of_complete_badTarget h hh hm hbad

/-- An instruction of format A that completes at its target when Z is `z`, and past its five bytes otherwise, follows the
rule the two conditional jumps share. -/
theorem branchRule_of_exec_eq_complete {mn : Mnemonic} {code : Byte} {con : Word → Instr} {z : Bool}
    (hcode : defaultOpcodeMap.code mn = code) (hsize : documentedSize mn = 5)
    (hencode : ∀ (m : OpcodeMap) (target : Word), encode m (con target) =
      [m.code mn, byteOf target 0, byteOf target 1, byteOf target 2, byteOf target 3])
    (hexec : ∀ (s : State) (target : Word), exec (con target) s =
      s.complete (if s.flags.getLsbD 0 = z then target else s.pc + 5)) :
    BranchRule mn code con z := by
  refine ⟨hcode, hencode, fun s target => ⟨_, hexec s target, rfl, rfl, rfl⟩, ?cut,
    fun s t target h hz hh hm hbad => ?badTarget⟩
  case cut =>
    rw [← hsize]
    exact cutAborts mn
  case badTarget =>
    rw [hexec, if_pos hz] at h
    exact step_of_complete_badTarget h hh hm hbad

/-- Settles O19: JZ and JNZ are one rule, for the two values of Z. -/
theorem conditionalJumps : Obligations.ConditionalJumps :=
  ⟨branchRule_of_exec_eq_complete rfl rfl (fun _ _ => rfl) exec_jz,
    branchRule_of_exec_eq_complete rfl rfl (fun _ _ => rfl) exec_jnz⟩

end Sys2Proof.Machine
end

section
/-! PROOF. The stack instructions PUSH, POP, CALL and RET with the stack word in RAM (44_stack.md R260 to R266), and each pair
of a push and a pop run one after the other. -/

namespace Sys2Proof.Machine

open Sys2Proof.Statements

/-! What the two pushing and the two popping instructions share in RAM. -/

/-- PUSH and CALL differ in the word `v` they store and in where PC goes. -/
theorem pushWord_ram_holdsWord {s : State} (v pc : Word) (hwf : s.ram.wf = true) (h4 : 4 ≤ s.sp.toNat)
    (hmem : s.sp.toNat ≤ s.cfg.memSize) (hr : resolve s.devmap (s.sp.toNat - 4) = .ram) :
    ∃ t, s.pushWord v pc = .next t ∧ t.status = .executed ∧ HoldsWord t (s.sp.toNat - 4) v ∧
      t.sp.toNat = s.sp.toNat - 4 ∧ t.flags = s.flags ∧ t.pc = pc :=
  ⟨_, pushWord_ram h4 hmem hr, rfl, holdsWord_of_writeWord hwf rfl, sp_sub_four h4, rfl, rfl⟩

theorem memRead_ramWord {s : State} {addr : Word} (hr : resolve s.devmap addr.toNat = .ram)
    (hb : addr.toNat + 4 ≤ s.cfg.memSize) : s.memRead addr = .ok (ramWord s addr.toNat, s) :=
  memRead_ram hr hb

/-! PUSH, CALL, POP and RET, each by itself. -/

/-- Settles O20: PUSH stores its register's word below SP and goes past its two bytes. -/
theorem pushWritesBelowSp : Obligations.PushWritesBelowSp := by
  intro s r hwf h4 hmem hr
  rw [exec_push]
  exact pushWord_ram_holdsWord _ _ hwf h4 hmem hr

/-- Settles O22: CALL stores the address after its five bytes below SP and goes to its target. -/
theorem callPushesReturnAddress : Obligations.CallPushesReturnAddress := by
  intro s target hwf h4 hmem hr
  rw [exec_call]
  exact pushWord_ram_holdsWord _ _ hwf h4 hmem hr

/-- Settles O21: the bus answers the RAM word at SP, which POP leaves as its result; SP cannot wrap below a legal
MEM_SIZE. -/
theorem popReadsAtSp : Obligations.PopReadsAtSp := by
  intro s d hsp hmem hr
  exact ⟨_, exec_pop_of_memRead hsp (memRead_ramWord hr hsp), rfl, withResult_reg _ d _ _,
    sp_add_four (by omega), withResult_z _ d _ _, rfl⟩

/-- Settles O23: the bus answers the RAM word at SP, and RET goes there, whatever it is. -/
theorem retPopsTarget : Obligations.RetPopsTarget := by
  intro s hsp hmem hr
  exact ⟨_, exec_ret_of_memRead hsp (memRead_ramWord hr hsp), rfl, rfl, sp_add_four (by omega), rfl⟩

/-! A pop right after a push. -/

/-- A push that completes, and does not halt on an overflow, had room for its word. -/
theorem four_le_sp_of_pushWord_executed {s t : State} {v pc : Word} (h : s.pushWord v pc = .next t)
    (hst : t.status = .executed) : 4 ≤ s.sp.toNat := by
  rcases pushWord_next h with rfl | ⟨_, h4, -⟩
  · cases hst
  · exact h4

/-- What the next pop finds: the pushed word at the new SP, inside RAM, four bytes below the old SP. -/
theorem memRead_sp_of_pushWord {s t : State} {v pc : Word} (hinv : s.inv = true)
    (hmem : s.sp.toNat ≤ s.cfg.memSize) (hr : resolve s.devmap (s.sp.toNat - 4) = .ram)
    (h : s.pushWord v pc = .next t) (hst : t.status = .executed) :
    t.sp.toNat + 4 ≤ t.cfg.memSize ∧ t.memRead t.sp = .ok (v, t) ∧ t.sp + 4 = s.sp := by
  obtain ⟨-, hwf, -⟩ := inv_iff.mp hinv
  have h4 := four_le_sp_of_pushWord_executed h hst
  have hsp := sp_sub_four h4
  rw [pushWord_ram h4 hmem hr, ← hsp] at h
  rw [← hsp] at hr
  have hb : (s.sp - 4).toNat + 4 ≤ s.cfg.memSize := by omega
  cases h
  exact ⟨hb, memRead_writeWord (s := { s with sp := s.sp - 4, pc := pc, status := .executed }) v hwf hr hb,
    BitVec.sub_add_cancel s.sp 4⟩

/-- Settles O38: POP reads back the word PUSH stored, at the SP that PUSH left. -/
theorem popAfterPushRestores : Obligations.PopAfterPushRestores := by
  intro s t r d hinv hmem hr h hst
  rw [exec_push] at h
  obtain ⟨hb, hread, hsp⟩ := memRead_sp_of_pushWord hinv hmem hr h hst
  exact ⟨_, exec_pop_of_memRead hb hread, rfl, withResult_reg _ d _ _, hsp⟩

/-- Settles O39: RET reads back the return address CALL stored, at the SP that CALL left. -/
theorem retAfterCallReturns : Obligations.RetAfterCallReturns := by
  intro s t target hinv hmem hr h hst
  rw [exec_call] at h
  obtain ⟨hb, hread, hsp⟩ := memRead_sp_of_pushWord hinv hmem hr h hst
  exact ⟨_, exec_ret_of_memRead hb hread, rfl, rfl, hsp⟩

end Sys2Proof.Machine
end

section
/-! PROOF. Host I/O and halt: OUT, IN and HALT (45_io_halt.md R280 to R286). -/

namespace Sys2Proof.Machine

open Sys2Proof.Statements

/-! IN, by the head of the input stream. -/

theorem exec_in_value_result (s : State) (d : Fin 8) {v : Word} {rest : List InputAnswer}
    (h : s.inp = .value v :: rest) :
    exec (.inp (regField d)) s = .next ({ s with inp := rest }.withResult d v (s.pc + 2)) :=
  exec_in_value s d h

theorem faultsWith_inputFailure {s : State} (d : Fin 8) {rest : List InputAnswer}
    (h : s.inp = .failure :: rest) : FaultsWith (.inp (regField d)) .inputFailure s :=
  ⟨_, exec_in_failure s d h, rfl, rfl⟩

/-- Settles O30: a value is IN's result, a failure its fault, and an empty stream makes it wait. -/
theorem inTakesTheNextAnswer : Obligations.InTakesTheNextAnswer := by
  refine ⟨fun s d v rest h => ?value, fun s d rest h => ?failure, fun s d h => ?wait⟩
  case value =>
    exact ⟨_, exec_in_value_result s d h, rfl, withResult_reg _ d v _, withResult_z _ d v _, rfl, rfl⟩
  case failure => exact faultsWith_inputFailure d h
  case wait => exact exec_in_wait s d h

/-! OUT and HALT. -/

/-- Settles O29: the register check passes, and the value goes to the end of the output. -/
theorem outAppendsValue : Obligations.OutAppendsValue :=
  fun s r => ⟨_, exec_out s r, rfl, emit_out s (s.reg r), emit_flags s (s.reg r), rfl⟩

theorem exec_halt (s : State) :
    exec .halt s =
      { s with halted := true }.complete (if s.cfg.haltAdvancesPc = true then s.pc + 1 else s.pc) :=
  rfl

/-- Settles O31: HALT writes the run state, and PC by the parameter. -/
theorem haltStopsTheMachine : Obligations.HaltStopsTheMachine :=
  fun s => ⟨_, exec_halt s, rfl, rfl, rfl, rfl⟩

end Sys2Proof.Machine
end

section
/-! PROOF. Execution faults and structural errors (60_exceptions.md R302 to R313): what an instruction reports past its
register check, the state a fault leaves, and the errors of the fetch and of the one data access. -/

namespace Sys2Proof.Machine

open Sys2Proof.Statements

/-! The errors of a data access (R311, R312). -/

theorem memRead_error {s : State} {addr : Word} {e : Fault} (h : s.memRead addr = .error e) :
    e = .deviceFault ∨ (e = .memOutOfRange ∧ s.cfg.memSize < addr.toNat + 4) := by
  unfold State.memRead at h
  split at h
  · split at h <;> cases h
    exact .inl rfl
  · split at h <;> cases h
    exact .inr ⟨rfl, by assumption⟩

theorem memWrite_error {s : State} {addr v : Word} {e : Fault} (h : s.memWrite addr v = .error e) :
    e = .deviceFault ∨ (e = .memOutOfRange ∧ s.cfg.memSize < addr.toNat + 4) := by
  unfold State.memWrite at h
  split at h
  · split at h <;> cases h
    exact .inl rfl
  · split at h <;> cases h
    exact .inr ⟨rfl, by assumption⟩

/-- The bus answers `e` to some data access. -/
def State.BusError (s : State) (e : Fault) : Prop :=
  (∃ addr, s.memRead addr = .error e) ∨ ∃ addr v, s.memWrite addr v = .error e

/-- A data access never reports the error of a fetch (R310). -/
theorem State.BusError.ne_decodeOutOfRange {s : State} {e : Fault} (h : s.BusError e) :
    e ≠ .decodeOutOfRange := by
  have hcause : e = .deviceFault ∨ e = .memOutOfRange := by
    rcases h with ⟨_, h⟩ | ⟨_, _, h⟩
    · exact (memRead_error h).imp_right And.left
    · exact (memWrite_error h).imp_right And.left
  rcases hcause with rfl | rfl <;> decide

/-! What an instruction does once its register fields are checked (40_cycle.md R175; R307, R316). -/

/-- An answer that comes after the register check: it does not report INVALID_REGISTER, and its structural error is the
bus's. -/
def PastRegisterCheck (s : State) : StepResult → Prop
  | .next t => t.status ≠ .execFault .invalidRegister
  | .fault e => s.BusError e
  | .refused _ => False

theorem pastRegisterCheck_complete (s s' : State) (pc : Word) :
    PastRegisterCheck s (s'.complete pc) :=
  Status.noConfusion

theorem pastRegisterCheck_raise {s : State} (s' : State) {c : ExecFault} (h : c ≠ .invalidRegister) :
    PastRegisterCheck s (s'.raise c) :=
  fun e => h (Status.execFault.inj e)

theorem pastRegisterCheck_pushWord (s : State) (v pc : Word) :
    PastRegisterCheck s (s.pushWord v pc) := by
  by_cases hsp : s.sp.toNat < 4
  · rw [pushWord_overflow v pc hsp]
    exact pastRegisterCheck_raise s (by decide)
  · have h4 : 4 ≤ s.sp.toNat := Nat.not_lt.mp hsp
    cases hw : s.memWrite (s.sp - 4) v with
    | error e =>
      rw [pushWord_of_error h4 hw]
      exact .inr ⟨_, _, hw⟩
    | ok s' =>
      rw [pushWord_of_memWrite h4 hw]
      exact pastRegisterCheck_complete s _ pc

theorem pastRegisterCheck_popWord {s : State} {k : Word → State → StepResult}
    (hk : ∀ v s', PastRegisterCheck s (k v s')) : PastRegisterCheck s (s.popWord k) := by
  by_cases hsp : s.cfg.memSize < s.sp.toNat + 4
  · rw [popWord_underflow k hsp]
    exact pastRegisterCheck_raise s (by decide)
  · have hfit : s.sp.toNat + 4 ≤ s.cfg.memSize := Nat.not_lt.mp hsp
    cases hr : s.memRead s.sp with
    | error e =>
      rw [popWord_of_error k hfit hr]
      exact .inl ⟨_, hr⟩
    | ok p =>
      rw [popWord_of_memRead k hfit hr]
      exact hk _ _

/-- The register fields decide the answer `r`: a bad one raises INVALID_REGISTER, and with none `r` comes after the
check. -/
def CheckedFirst (fields : List Byte) (s : State) (r : StepResult) : Prop :=
  (fields.all regFieldOk = false ∧ r = s.raise .invalidRegister) ∨
    (fields.all regFieldOk = true ∧ PastRegisterCheck s r)

theorem checkedFirst_nil {s : State} {r : StepResult} (h : PastRegisterCheck s r) :
    CheckedFirst [] s r :=
  .inr ⟨rfl, h⟩

@[simp] theorem regFieldOk_regField (i : Fin 8) : regFieldOk (regField i) = true :=
  decide_eq_true (toNat_regField_lt i)

theorem checkedFirst_withReg {f : Byte} {fields : List Byte} {s : State} {k : Fin 8 → StepResult}
    (h : ∀ i, CheckedFirst fields s (k i)) : CheckedFirst (f :: fields) s (withReg f s k) := by
  rcases withReg_cases f s k with ⟨i, rfl, e⟩ | ⟨hbad, e⟩ <;> rw [e]
  · simpa [CheckedFirst] using h i
  · exact .inl ⟨by simp [hbad], rfl⟩

theorem checkedFirst_aluOp (f : Word → Word → Word) (d a b : Byte) (s : State) :
    CheckedFirst [d, a, b] s (aluOp f d a b s) :=
  checkedFirst_withReg fun _ => checkedFirst_withReg fun _ => checkedFirst_withReg fun _ =>
    checkedFirst_nil (pastRegisterCheck_complete s _ _)

/-- Every instruction checks the fields it has, in the model's own list of them, before all else. -/
theorem exec_checkedFirst (i : Instr) (s : State) : CheckedFirst i.regFields s (exec i s) := by
  cases i with
  | loadi d imm =>
    exact checkedFirst_withReg fun _ => checkedFirst_nil (pastRegisterCheck_complete s _ _)
  | load d b off =>
    refine checkedFirst_withReg fun d => checkedFirst_withReg fun b => checkedFirst_nil ?_
    cases hr : s.memRead (s.effAddr b off) with
    | error e => exact .inl ⟨_, hr⟩
    | ok p => exact pastRegisterCheck_complete s _ _
  | store b r off =>
    refine checkedFirst_withReg fun b => checkedFirst_withReg fun r => checkedFirst_nil ?_
    cases hw : s.memWrite (s.effAddr b off) (s.reg r) with
    | error e => exact .inr ⟨_, _, hw⟩
    | ok s' => exact pastRegisterCheck_complete s _ _
  | add d a b | sub d a b | and d a b | or d a b | xor d a b => exact checkedFirst_aluOp _ d a b s
  | cmp a b =>
    exact checkedFirst_withReg fun _ => checkedFirst_withReg fun _ =>
      checkedFirst_nil (pastRegisterCheck_complete s _ _)
  | push r => exact checkedFirst_withReg fun r => checkedFirst_nil (pastRegisterCheck_pushWord s _ _)
  | pop d =>
    exact checkedFirst_withReg fun d => checkedFirst_nil
      (pastRegisterCheck_popWord fun v s' => pastRegisterCheck_complete s _ _)
  | out r => exact checkedFirst_withReg fun r => checkedFirst_nil (pastRegisterCheck_complete s _ _)
  | inp d =>
    refine checkedFirst_withReg fun d => checkedFirst_nil ?_
    rcases s.inp with - | ⟨v | -, rest⟩
    · exact Status.noConfusion
    · exact pastRegisterCheck_complete s _ _
    · exact pastRegisterCheck_raise _ (by decide)
  | jmp target => exact checkedFirst_nil (pastRegisterCheck_complete s s target)
  | jz target =>
    rw [exec_jz]
    exact checkedFirst_nil (pastRegisterCheck_complete s s _)
  | jnz target =>
    rw [exec_jnz]
    exact checkedFirst_nil (pastRegisterCheck_complete s s _)
  | call target => exact checkedFirst_nil (pastRegisterCheck_pushWord s _ target)
  | ret => exact checkedFirst_nil (pastRegisterCheck_popWord fun v s' => pastRegisterCheck_complete s s' v)
  | halt => exact checkedFirst_nil (pastRegisterCheck_complete s _ _)

/-! The fetch (R310). -/

theorem exec_ne_decodeOutOfRange (i : Instr) (s : State) : exec i s ≠ .fault .decodeOutOfRange := by
  intro h
  rcases exec_checkedFirst i s with ⟨-, e⟩ | ⟨-, hpast⟩
  · cases e.symm.trans h
  · rw [h] at hpast
    exact State.BusError.ne_decodeOutOfRange hpast rfl

/-- Settles O8: both causes stop the fetch before a record is made, and an instruction's structural error is the bus's. -/
theorem fetchPastTheEndAborts : Obligations.FetchPastTheEndAborts :=
  ⟨fun _ hh hpc => step_of_decodeAt_error (e := .decodeOutOfRange) hh (decodeAt_past_end hpc),
    fun s mn hh hm hr hop hcut => cutAborts mn s hh hm (.inr ⟨hr, hop, hcut⟩),
    exec_ne_decodeOutOfRange⟩

/-! INVALID_REGISTER (R307). -/

theorem namesBadRegister_iff (i : Instr) : namesBadRegister i ↔ i.wellFormed = false := by
  cases i <;> simp [namesBadRegister, Instr.wellFormed, Instr.regFields, regFieldOk, imp_iff_not_or]

/-- Settles O28: the register check comes first, and nothing after it reports INVALID_REGISTER. -/
theorem invalidRegisterFaults : Obligations.InvalidRegisterFaults := by
  intro i s
  rw [namesBadRegister_iff, Instr.wellFormed]
  rcases exec_checkedFirst i s with ⟨hbad, e⟩ | ⟨hok, hpast⟩
  · exact ⟨fun _ => faultsWith_of_raise e, fun hn => absurd hbad hn⟩
  · refine ⟨fun hbad => absurd (hok.symm.trans hbad) (by decide), fun _ ⟨t, ht, hst, _⟩ => ?_⟩
    rw [ht] at hpast
    exact hpast hst

/-! The state after an execution fault (R302, R320). -/

/-- Settles O11: the one end of an instruction that reports a fault and writes more than the run state is IN's, which has
taken the failed answer. -/
theorem executionFaultIsPrecise : Obligations.ExecutionFaultIsPrecise := by
  intro s t c h hst
  have hsetup := step_sameSetup h
  rcases step_next h with ⟨-, rfl⟩ | ⟨-, hend⟩
  · cases hst
  cases hend with
  | completed _ e => cases e.status.symm.trans hst
  | fault _ hne =>
    cases hst
    exact ⟨rfl, rfl, rfl, rfl, rfl, rfl, hsetup, rfl, rfl, fun _ => rfl, fun e => absurd e hne⟩
  | inputFailure rest hinp =>
    cases hst
    exact ⟨rfl, rfl, rfl, rfl, rfl, rfl, hsetup, rfl, rfl, fun hne => absurd rfl hne, fun _ => hinp⟩
  | waiting => cases hst

/-! The stack's faults (R308, R313). -/

/-- Settles O25. -/
theorem stackOverflowFaults : Obligations.StackOverflowFaults := fun s hsp =>
  ⟨fun r => faultsWith_of_raise ((exec_push s r).trans (pushWord_overflow _ _ hsp)),
    fun target => faultsWith_of_raise ((exec_call s target).trans (pushWord_overflow _ _ hsp))⟩

/-- Settles O26. -/
theorem stackUnderflowFaults : Obligations.StackUnderflowFaults := fun s hsp =>
  ⟨fun d => faultsWith_of_raise ((exec_pop s d).trans (popWord_underflow _ hsp)),
    faultsWith_of_raise ((exec_ret s).trans (popWord_underflow _ hsp))⟩

/-! MEM_OUT_OF_RANGE (R311). -/

theorem pushWord_ram_out {s : State} (v pc : Word) (h4 : 4 ≤ s.sp.toNat)
    (hr : resolve s.devmap (s.sp.toNat - 4) = .ram) (hout : s.cfg.memSize < s.sp.toNat - 4 + 4) :
    s.pushWord v pc = .fault .memOutOfRange := by
  rw [← sp_sub_four h4] at hr hout
  exact pushWord_of_error h4 (memWrite_ram_out hr hout)

/-- The underflow check leaves no stack word past RAM to read (44_stack.md R262). -/
theorem popWord_ne_memOutOfRange {s : State} {k : Word → State → StepResult}
    (hk : ∀ v s', k v s' ≠ .fault .memOutOfRange) : s.popWord k ≠ .fault .memOutOfRange := by
  intro h
  by_cases hsp : s.cfg.memSize < s.sp.toNat + 4
  · rw [popWord_underflow k hsp] at h
    cases h
  · have hfit : s.sp.toNat + 4 ≤ s.cfg.memSize := Nat.not_lt.mp hsp
    cases hr : s.memRead s.sp with
    | error e =>
      rw [popWord_of_error k hfit hr] at h
      cases h
      exact hsp ((memRead_error hr).resolve_left nofun).2
    | ok p =>
      rw [popWord_of_memRead k hfit hr] at h
      exact hk _ _ h

theorem complete_ne_fault (s : State) (pc : Word) (e : Fault) : s.complete pc ≠ .fault e := nofun

theorem withReg_ne_fault {r : Byte} {s : State} {k : Fin 8 → StepResult} {e : Fault}
    (hk : ∀ i, k i ≠ .fault e) : withReg r s k ≠ .fault e := by
  rcases withReg_cases r s k with ⟨i, -, h⟩ | ⟨-, h⟩ <;> rw [h]
  · exact hk i
  · nofun

theorem exec_pop_ne_memOutOfRange (d : Byte) (s : State) :
    exec (.pop d) s ≠ .fault .memOutOfRange :=
  withReg_ne_fault fun _ => popWord_ne_memOutOfRange fun _ _ => complete_ne_fault _ _ _

theorem exec_ret_ne_memOutOfRange (s : State) : exec .ret s ≠ .fault .memOutOfRange := by
  rw [exec_ret]
  exact popWord_ne_memOutOfRange fun v s' => complete_ne_fault s' v _

/-- Settles O27: the bus refuses a RAM word that ends past MEM_SIZE, and POP and RET check SP before they read. -/
theorem dataAccessPastTheEndAborts : Obligations.DataAccessPastTheEndAborts := by
  refine ⟨fun s r b off hr hout => ?loadStore, fun s h4 hr hout => ?push, fun s d => ?pop⟩
  case loadStore =>
    rw [← effAddr_eq_dataAddress] at hr hout
    exact ⟨exec_load_of_error r (memRead_ram_out hr hout),
      exec_store_of_error (memWrite_ram_out hr hout)⟩
  case push =>
    exact ⟨fun r => (exec_push s r).trans (pushWord_ram_out _ _ h4 hr hout),
      fun target => (exec_call s target).trans (pushWord_ram_out _ _ h4 hr hout)⟩
  case pop => exact ⟨exec_pop_ne_memOutOfRange d s, exec_ret_ne_memOutOfRange s⟩

end Sys2Proof.Machine
end

section
/-! PROOF. Snapshots (70_reset_and_hazards.md R370 to R374): where each field of a saved snapshot lies, what it reads back
as, and which byte strings a restore accepts. -/

namespace Sys2Proof.Machine

/-! The checks of a restore (R372). -/

theorem loadSnapshot_of_check {s : State} {bs : List Byte} (h : checkSnapshot s.cfg bs = none) :
    loadSnapshot bs s = .ok (restoredState bs s) := by
  simp only [loadSnapshot, h]

theorem exists_loadSnapshot_iff {s : State} {bs : List Byte} :
    (∃ t, loadSnapshot bs s = .ok t) ↔ checkSnapshot s.cfg bs = none :=
  ⟨fun ⟨_, h⟩ => (loadSnapshot_ok h).1, fun h => ⟨_, loadSnapshot_of_check h⟩⟩

/-- Settles O53: a restore fails in its checks only. -/
theorem snapshotIsChecked : Obligations.SnapshotIsChecked :=
  fun _ _ => exists_loadSnapshot_iff.trans checkSnapshot_eq_none

/-! The layout of a saved snapshot (R370). -/

/-- The fields before the register count: the magic, PC, SP and FLAGS. -/
def snapshotHead (s : State) : List Byte :=
  snapMagic ++ wordBytes s.pc ++ wordBytes s.sp ++ wordBytes s.flags

@[simp] theorem length_snapshotHead (s : State) : (snapshotHead s).length = 16 := rfl

theorem saveSnapshot_eq (s : State) :
    saveSnapshot s = snapshotHead s ++ (leBytes 8 s.cfg.snapWordBytes ++
      (s.x.toList.flatMap wordBytes ++ (leBytes s.cfg.memSize s.cfg.snapWordBytes ++
        s.ram.readBytes 0 s.cfg.memSize))) := by
  simp only [saveSnapshot, snapshotHead, List.append_assoc]

@[simp] theorem length_flatMap_wordBytes (l : List Word) : (l.flatMap wordBytes).length = 4 * l.length := by
  simp [List.length_flatMap, Nat.mul_comm]

theorem length_saveSnapshot (s : State) :
    (saveSnapshot s).length = 48 + 2 * s.cfg.snapWordBytes + s.cfg.memSize := by
  simp [saveSnapshot_eq]
  omega

/-- Settles O52: the first four fields are the magic's four bytes and three words. -/
theorem snapshotLayout : Obligations.SnapshotLayout :=
  fun s => ⟨length_saveSnapshot s, rfl⟩

/-! What the fields read back as (R372, R373). -/

theorem natAt_mid {a : List Byte} (b : List Byte) {v k w : Nat} (hk : a.length = k) (hv : v < 256 ^ w) :
    natAt (a ++ (leBytes v w ++ b)) k w = v := by
  rw [natAt, List.drop_left' hk, List.take_left' (length_leBytes v w), leNat_leBytes v w hv]

theorem wordAt_saveSnapshot_pc (s : State) : wordAt (saveSnapshot s) 4 = s.pc :=
  le32_wordByte s.pc

theorem wordAt_saveSnapshot_sp (s : State) : wordAt (saveSnapshot s) 8 = s.sp :=
  le32_wordByte s.sp

theorem wordAt_saveSnapshot_flags (s : State) : wordAt (saveSnapshot s) 12 = s.flags :=
  le32_wordByte s.flags

theorem natAt_saveSnapshot_regCount {s : State} (h : 8 < 256 ^ s.cfg.snapWordBytes) :
    natAt (saveSnapshot s) 16 s.cfg.snapWordBytes = 8 := by
  rw [saveSnapshot_eq]
  exact natAt_mid _ (length_snapshotHead s) h

theorem wordAt_saveSnapshot_reg (s : State) (i : Fin 8) :
    wordAt (saveSnapshot s) (16 + s.cfg.snapWordBytes + 4 * i.val) = s.x[i] := by
  rw [saveSnapshot_eq, ← List.append_assoc]
  exact wordAt_flatMap _ _ s.x.toList i.val _ (by simp) (by simp)

theorem natAt_saveSnapshot_memSize {s : State} (h : s.cfg.memSize < 256 ^ s.cfg.snapWordBytes) :
    natAt (saveSnapshot s) (48 + s.cfg.snapWordBytes) s.cfg.snapWordBytes = s.cfg.memSize := by
  rw [saveSnapshot_eq, ← List.append_assoc, ← List.append_assoc]
  exact natAt_mid _ (by simp; omega) h

theorem drop_saveSnapshot (s : State) :
    (saveSnapshot s).drop (48 + 2 * s.cfg.snapWordBytes) = s.ram.readBytes 0 s.cfg.memSize := by
  rw [saveSnapshot_eq, ← List.append_assoc, ← List.append_assoc, ← List.append_assoc]
  exact List.drop_left' (by simp; omega)

/-! The round trip (R374). -/

theorem configOk_iff {cfg : Config} :
    configOk cfg = true ↔ 4 ≤ cfg.memSize ∧ cfg.memSize ≤ 2 ^ 32 - 4 ∧ cfg.opcodes.injective = true ∧
      0 < cfg.bpStepCap ∧ cfg.bpMax ≠ some 0 ∧ 8 < 256 ^ cfg.snapWordBytes ∧
      cfg.memSize < 256 ^ cfg.snapWordBytes := by
  simp only [configOk, Bool.and_eq_true, decide_eq_true_eq, and_assoc]

theorem checkSnapshot_saveSnapshot {s : State} (h : configOk s.cfg = true) :
    checkSnapshot s.cfg (saveSnapshot s) = none := by
  obtain ⟨-, -, -, -, -, hcount, hsize⟩ := configOk_iff.mp h
  exact checkSnapshot_eq_none.mpr ⟨length_saveSnapshot s, rfl, natAt_saveSnapshot_regCount hcount,
    natAt_saveSnapshot_memSize hsize⟩

theorem restoredState_saveSnapshot_x {s s' : State} (h : s'.cfg = s.cfg) :
    (restoredState (saveSnapshot s) s').x = s.x := by
  apply Vector.ext
  intro i hi
  simpa [restoredState, h] using wordAt_saveSnapshot_reg s ⟨i, hi⟩

theorem restoredState_saveSnapshot_ram {s s' : State} (h : s'.cfg = s.cfg) (hwf : s.ram.wf = true)
    (hbelow : s.ram.below s.cfg.memSize = true) :
    (restoredState (saveSnapshot s) s').ram = s.ram := by
  simp only [restoredState, h, drop_saveSnapshot]
  exact ofBytes_readBytes hwf hbelow

/-- Settles O51: a saved snapshot passes every check of a restore, and each field reads back as it was written. -/
theorem snapshotRoundTrip : Obligations.SnapshotRoundTrip := by
  intro s s' hinv hcfg
  obtain ⟨hlegal, hwf, hbelow, -⟩ := inv_iff.mp hinv
  have hcheck : checkSnapshot s'.cfg (saveSnapshot s) = none := hcfg ▸ checkSnapshot_saveSnapshot hlegal
  exact ⟨_, loadSnapshot_of_check hcheck, wordAt_saveSnapshot_pc s, wordAt_saveSnapshot_sp s,
    wordAt_saveSnapshot_flags s, restoredState_saveSnapshot_x hcfg,
    restoredState_saveSnapshot_ram hcfg hwf hbelow, rfl, rfl, rfl, rfl⟩

end Sys2Proof.Machine
end

section
/-! PROOF. Reset and program loading (70_reset_and_hazards.md R350 to R363): the CPU state powerOn leaves, the state a load
defines, and the v1 header. -/

namespace Sys2Proof.Machine

/-! powerOn and construction (R350, R351). -/

theorem toNat_powerOn_sp {s : State} (h : configOk s.cfg = true) :
    (powerOn s).sp.toNat = s.cfg.memSize - 4 := by
  obtain ⟨-, hsize, -⟩ := configOk_iff.mp h
  rw [powerOn_sp, BitVec.toNat_ofNat, Nat.mod_eq_of_lt (by omega)]

/-- Settles O47: powerOn writes the CPU state alone, and construction writes the same one. -/
theorem powerOnResetsTheCpu : Obligations.PowerOnResetsTheCpu :=
  ⟨fun s h => ⟨powerOn_pc s, toNat_powerOn_sp h, powerOn_flags s, powerOn_halted s, powerOn_ram s,
    powerOn_cfg s, powerOn_devmap s, powerOn_bp s⟩, fun _ _ => rfl, rfl⟩

/-! The v1 header (R360, R361, R363). -/

theorem parseProgram_v1 (verify : Bool) (entry : Word) (payload : List Byte) :
    parseProgram verify (headerMagic ++ wordBytes 1 ++ wordBytes entry ++ payload) =
      .ok (payload, entry) := by
  set bytes := headerMagic ++ wordBytes 1 ++ wordBytes entry ++ payload with hbytes
  have hlen : bytes.length = 12 + payload.length := by simp [hbytes, headerMagic]; omega
  have hmagic : bytes.take 4 = headerMagic := rfl
  have hversion : wordAt bytes 4 = 1 := le32_wordByte 1
  have hentry : wordAt bytes 8 = entry := le32_wordByte entry
  have hdrop : bytes.drop 12 = payload := rfl
  clear_value bytes
  have hlong : ¬ bytes.length < 12 := by omega
  have hshort : ¬ (bytes.length < 4 ∨ bytes.take 4 ≠ headerMagic) := by simp [hmagic]; omega
  rw [parseProgram, if_neg hshort, if_neg (by omega), hversion, hentry]
  simp [headerSize, hlong, hdrop]

/-- Settles O50: only version 2 is verified. -/
theorem versionOneNeedsNoChecksum : Obligations.VersionOneNeedsNoChecksum :=
  parseProgram_v1

/-! The state after a program load (R356, R357). -/

theorem read_ofBytes_zero (bs : List Byte) (a : Nat) : (Memory.ofBytes 0 bs).read a = bs.getD a 0 := by
  rw [read_ofBytes]
  by_cases ha : a < bs.length
  · simp [ha]
  · simp [ha, Memory.unlisted]

/-- Settles O48: the loaded state is powerOn's with the payload in RAM and PC at the entry, and neither the parse nor the
fit of the payload asks for more of the state before than its parameters. -/
theorem programLoadDefinesTheState : Obligations.ProgramLoadDefinesTheState := by
  intro bytes payload entry s t hparse hload
  obtain ⟨_, _, hparse', hfit, rfl⟩ := loadProgramBytes_ok hload
  cases hparse.symm.trans hparse'
  rw [loadedState_eq]
  refine ⟨rfl, rfl, rfl, reg_of_cleared rfl, toNat_powerOn_sp, rfl, read_ofBytes_zero payload,
    ⟨rfl, rfl, rfl⟩, fun s' hcfg => ?independent⟩
  case independent =>
    rw [← hcfg] at hparse hfit
    refine ⟨_, loadProgramBytes_of_parse hparse hfit, ?_⟩
    rw [loadedState_eq]
    simp [hcfg]

end Sys2Proof.Machine
end
